-- ==== Sys2Proof/Word.lean ====
section
/-! DEFINITION. The word types of the core: bytes of memory and of V0-VF, 16-bit words (opcode, I, pc, stack entries), 12-bit immediates, and indices of registers. -/

namespace Sys2Proof

/-- A byte: a memory cell, a general register, a timer (10_state.md R20, R25, R26, R28). -/
abbrev Byte := BitVec 8

/-- A 16-bit value: the opcode, I, pc and stack entries (10_state.md R22-R24). -/
abbrev Word := BitVec 16

/-- The 12-bit immediate nnn (30_encoding.md R91). -/
abbrev Addr12 := BitVec 12

/-- A register index 0-15 (10_state.md R20). -/
abbrev Reg := Fin 16

/-- `zext_16` of a 12-bit immediate (30_encoding.md R92). -/
abbrev zext16 (nnn : Addr12) : Word := nnn.setWidth 16

end Sys2Proof
end

