-- ==== Sys2Proof/Syntax.lean ====
section
/-! DEFINITION. The instructions: one constructor per row of the opcode map (30_encoding.md R95), with the fields that row carries. -/

namespace Sys2Proof

/-- A decoded instruction (30_encoding.md R93, R95). Shr and Shl carry the y field that they ignore. -/
inductive Instr where
  | clearScreen
  | ret
  | jump (nnn : Addr12)
  | call (nnn : Addr12)
  | skipEq (x : Reg) (kk : Byte)
  | skipNe (x : Reg) (kk : Byte)
  | skipEqReg (x y : Reg)
  | loadImm (x : Reg) (kk : Byte)
  | addImm (x : Reg) (kk : Byte)
  | move (x y : Reg)
  | or (x y : Reg)
  | and (x y : Reg)
  | xor (x y : Reg)
  | add (x y : Reg)
  | sub (x y : Reg)
  | shr (x y : Reg)
  | subn (x y : Reg)
  | shl (x y : Reg)
  | skipNeReg (x y : Reg)
  | loadI (nnn : Addr12)
  | jumpAdd (nnn : Addr12)
  | rand (x : Reg) (kk : Byte)
  | draw (x y : Reg) (n : Fin 16)
  | skipPressed (x : Reg)
  | skipNotPressed (x : Reg)
  | readDelay (x : Reg)
  | waitKey (x : Reg)
  | setDelay (x : Reg)
  | setSound (x : Reg)
  | addI (x : Reg)
  | spriteDigit (x : Reg)
  | storeBCD (x : Reg)
  | storeRegisters (x : Reg)
  | readRegisters (x : Reg)
  | unrecognized (raw : Word)
  deriving DecidableEq, Repr

end Sys2Proof
end

