-- ==== Sys2Proof/WellFormed.lean ====
section
/-! DEFINITION. Which terms of Instr are instructions. Every field's range is in its type, so the one check is that the word an `unrecognized` carries is one that the opcode map leaves out (30_encoding.md R96). -/

namespace Sys2Proof

/-- The illegal words, grouped by major nibble as 30_encoding.md R96 lists them. -/
def illegalWord (raw : Word) : Bool :=
  let low := raw.toNat % 256
  let n := raw.toNat % 16
  match raw.toNat / 4096 with
  | 0x0 => raw != 0x00E0 && raw != 0x00EE
  | 0x5 => n != 0
  | 0x8 => [0x8, 0x9, 0xA, 0xB, 0xC, 0xD, 0xF].contains n
  | 0x9 => n != 0
  | 0xE => low != 0x9E && low != 0xA1
  | 0xF => !([0x07, 0x0A, 0x15, 0x18, 0x1E, 0x29, 0x33, 0x55, 0x65].contains low)
  | _ => false

/-- A term of Instr is an instruction (30_encoding.md R93, R96, R100). -/
def wellFormed : Instr → Bool
  | .clearScreen => true
  | .ret => true
  | .jump _ => true
  | .call _ => true
  | .skipEq _ _ => true
  | .skipNe _ _ => true
  | .skipEqReg _ _ => true
  | .loadImm _ _ => true
  | .addImm _ _ => true
  | .move _ _ => true
  | .or _ _ => true
  | .and _ _ => true
  | .xor _ _ => true
  | .add _ _ => true
  | .sub _ _ => true
  | .shr _ _ => true
  | .subn _ _ => true
  | .shl _ _ => true
  | .skipNeReg _ _ => true
  | .loadI _ => true
  | .jumpAdd _ => true
  | .rand _ _ => true
  | .draw _ _ _ => true
  | .skipPressed _ => true
  | .skipNotPressed _ => true
  | .readDelay _ => true
  | .waitKey _ => true
  | .setDelay _ => true
  | .setSound _ => true
  | .addI _ => true
  | .spriteDigit _ => true
  | .storeBCD _ => true
  | .storeRegisters _ => true
  | .readRegisters _ => true
  | .unrecognized raw => illegalWord raw

end Sys2Proof
end

