-- ==== Sys2Proof/Decode.lean ====
section
/-! DEFINITION. The decoder, a total function of the 16-bit opcode (30_encoding.md R93-R96), the encoder written from the same opcode map (R95), the byte order of an opcode in memory (20_memory.md R63), and the map's match and mask columns. -/

namespace Sys2Proof

/-- The major nibble raw[15:12] (30_encoding.md R90). -/
def fieldMajor (raw : Word) : Nat := (raw.extractLsb' 12 4).toNat

/-- x = raw[11:8] (30_encoding.md R91). -/
def fieldX (raw : Word) : Reg := Fin.ofNat 16 (raw.extractLsb' 8 4).toNat

/-- y = raw[7:4] (30_encoding.md R91). -/
def fieldY (raw : Word) : Reg := Fin.ofNat 16 (raw.extractLsb' 4 4).toNat

/-- n = raw[3:0] (30_encoding.md R91). -/
def fieldN (raw : Word) : Fin 16 := Fin.ofNat 16 (raw.extractLsb' 0 4).toNat

/-- kk = raw[7:0] (30_encoding.md R91). -/
def fieldKK (raw : Word) : Byte := raw.extractLsb' 0 8

/-- nnn = raw[11:0] (30_encoding.md R91). -/
def fieldNNN (raw : Word) : Addr12 := raw.extractLsb' 0 12

/-- Rows 00E0 and 00EE (30_encoding.md R95). -/
def decode0 (raw : Word) : Instr :=
  if raw = 0x00E0 then .clearScreen
  else if raw = 0x00EE then .ret
  else .unrecognized raw

/-- Rows 8xy0 to 8xyE, by the low nibble (30_encoding.md R95). -/
def decode8 (raw : Word) : Instr :=
  let x := fieldX raw
  let y := fieldY raw
  match (fieldN raw).val with
  | 0x0 => .move x y
  | 0x1 => .or x y
  | 0x2 => .and x y
  | 0x3 => .xor x y
  | 0x4 => .add x y
  | 0x5 => .sub x y
  | 0x6 => .shr x y
  | 0x7 => .subn x y
  | 0xE => .shl x y
  | _ => .unrecognized raw

/-- Rows Ex9E and ExA1 (30_encoding.md R95). -/
def decodeE (raw : Word) : Instr :=
  match (fieldKK raw).toNat with
  | 0x9E => .skipPressed (fieldX raw)
  | 0xA1 => .skipNotPressed (fieldX raw)
  | _ => .unrecognized raw

/-- Rows Fx07 to Fx65, by the low byte (30_encoding.md R95). -/
def decodeF (raw : Word) : Instr :=
  let x := fieldX raw
  match (fieldKK raw).toNat with
  | 0x07 => .readDelay x
  | 0x0A => .waitKey x
  | 0x15 => .setDelay x
  | 0x18 => .setSound x
  | 0x1E => .addI x
  | 0x29 => .spriteDigit x
  | 0x33 => .storeBCD x
  | 0x55 => .storeRegisters x
  | 0x65 => .readRegisters x
  | _ => .unrecognized raw

/-- `decode(raw)`: "Splits `raw` into four nibbles and pattern-matches"; a word that matches no row
is Unrecognized (30_encoding.md R93-R96, R100). -/
def decode (raw : Word) : Instr :=
  match fieldMajor raw with
  | 0x0 => decode0 raw
  | 0x1 => .jump (fieldNNN raw)
  | 0x2 => .call (fieldNNN raw)
  | 0x3 => .skipEq (fieldX raw) (fieldKK raw)
  | 0x4 => .skipNe (fieldX raw) (fieldKK raw)
  | 0x5 => if fieldN raw = 0 then .skipEqReg (fieldX raw) (fieldY raw) else .unrecognized raw
  | 0x6 => .loadImm (fieldX raw) (fieldKK raw)
  | 0x7 => .addImm (fieldX raw) (fieldKK raw)
  | 0x8 => decode8 raw
  | 0x9 => if fieldN raw = 0 then .skipNeReg (fieldX raw) (fieldY raw) else .unrecognized raw
  | 0xA => .loadI (fieldNNN raw)
  | 0xB => .jumpAdd (fieldNNN raw)
  | 0xC => .rand (fieldX raw) (fieldKK raw)
  | 0xD => .draw (fieldX raw) (fieldY raw) (fieldN raw)
  | 0xE => decodeE raw
  | _ => decodeF raw

/-- A pattern with the 12-bit field nnn below its major nibble. -/
def packNNN (major : BitVec 4) (nnn : Addr12) : Word := major ++ nnn

/-- A pattern with x and an 8-bit low byte (kk, or a literal) below its major nibble. -/
def packXKK (major : BitVec 4) (x : Reg) (kk : Byte) : Word :=
  major ++ BitVec.ofNat 4 x.val ++ kk

/-- A pattern with x, y and a low nibble (n, or a literal) below its major nibble. -/
def packXYN (major : BitVec 4) (x y n : Fin 16) : Word :=
  major ++ BitVec.ofNat 4 x.val ++ BitVec.ofNat 4 y.val ++ BitVec.ofNat 4 n.val

/-- The opcode of an instruction, row by row of the opcode map (30_encoding.md R95). -/
def encode : Instr → Word
  | .clearScreen => 0x00E0
  | .ret => 0x00EE
  | .jump nnn => packNNN 0x1 nnn
  | .call nnn => packNNN 0x2 nnn
  | .skipEq x kk => packXKK 0x3 x kk
  | .skipNe x kk => packXKK 0x4 x kk
  | .skipEqReg x y => packXYN 0x5 x y 0x0
  | .loadImm x kk => packXKK 0x6 x kk
  | .addImm x kk => packXKK 0x7 x kk
  | .move x y => packXYN 0x8 x y 0x0
  | .or x y => packXYN 0x8 x y 0x1
  | .and x y => packXYN 0x8 x y 0x2
  | .xor x y => packXYN 0x8 x y 0x3
  | .add x y => packXYN 0x8 x y 0x4
  | .sub x y => packXYN 0x8 x y 0x5
  | .shr x y => packXYN 0x8 x y 0x6
  | .subn x y => packXYN 0x8 x y 0x7
  | .shl x y => packXYN 0x8 x y 0xE
  | .skipNeReg x y => packXYN 0x9 x y 0x0
  | .loadI nnn => packNNN 0xA nnn
  | .jumpAdd nnn => packNNN 0xB nnn
  | .rand x kk => packXKK 0xC x kk
  | .draw x y n => packXYN 0xD x y n
  | .skipPressed x => packXKK 0xE x 0x9E
  | .skipNotPressed x => packXKK 0xE x 0xA1
  | .readDelay x => packXKK 0xF x 0x07
  | .waitKey x => packXKK 0xF x 0x0A
  | .setDelay x => packXKK 0xF x 0x15
  | .setSound x => packXKK 0xF x 0x18
  | .addI x => packXKK 0xF x 0x1E
  | .spriteDigit x => packXKK 0xF x 0x29
  | .storeBCD x => packXKK 0xF x 0x33
  | .storeRegisters x => packXKK 0xF x 0x55
  | .readRegisters x => packXKK 0xF x 0x65
  | .unrecognized raw => raw

/-- The opcode of two consecutive bytes, the lower address first: big-endian (20_memory.md R63). -/
def joinBytes (hi lo : Byte) : Word := hi ++ lo

/-- The two bytes of an opcode in memory order (20_memory.md R63). -/
def splitWord (raw : Word) : Byte × Byte := (raw.extractLsb' 8 8, raw.extractLsb' 0 8)

/-- Why bytes are not an instruction. No word is refused (30_encoding.md R93): only a list of
fewer than two bytes is. -/
inductive DecodeError where
  | truncated
  deriving DecidableEq, Repr

/-- The first instruction of a list of bytes and the bytes after it: every instruction is 2 bytes
long (30_encoding.md R90, R98). -/
def decodeBytes : List Byte → Except DecodeError (Instr × List Byte)
  | hi :: lo :: rest => .ok (decode (joinBytes hi lo), rest)
  | _ => .error .truncated

/-- The instruction the decoder reads from an opcode numbered as spec/opcode_table.json numbers its
bits: one 16-bit word, every bit from `nbits` up zero, stored big-endian. -/
def decodeTableWord (nbits w : Nat) : Option Instr :=
  let bytes := splitWord (BitVec.ofNat 16 (w % 2 ^ nbits))
  match decodeBytes [bytes.1, bytes.2] with
  | .ok r => some r.1
  | .error _ => none

/-- The mask column of the opcode map (30_encoding.md R95); the catch-all row has none. -/
def rowMask : Instr → Word
  | .clearScreen => 0xFFFF
  | .ret => 0xFFFF
  | .jump _ => 0xF000
  | .call _ => 0xF000
  | .skipEq _ _ => 0xF000
  | .skipNe _ _ => 0xF000
  | .skipEqReg _ _ => 0xF00F
  | .loadImm _ _ => 0xF000
  | .addImm _ _ => 0xF000
  | .move _ _ => 0xF00F
  | .or _ _ => 0xF00F
  | .and _ _ => 0xF00F
  | .xor _ _ => 0xF00F
  | .add _ _ => 0xF00F
  | .sub _ _ => 0xF00F
  | .shr _ _ => 0xF00F
  | .subn _ _ => 0xF00F
  | .shl _ _ => 0xF00F
  | .skipNeReg _ _ => 0xF00F
  | .loadI _ => 0xF000
  | .jumpAdd _ => 0xF000
  | .rand _ _ => 0xF000
  | .draw _ _ _ => 0xF000
  | .skipPressed _ => 0xF0FF
  | .skipNotPressed _ => 0xF0FF
  | .readDelay _ => 0xF0FF
  | .waitKey _ => 0xF0FF
  | .setDelay _ => 0xF0FF
  | .setSound _ => 0xF0FF
  | .addI _ => 0xF0FF
  | .spriteDigit _ => 0xF0FF
  | .storeBCD _ => 0xF0FF
  | .storeRegisters _ => 0xF0FF
  | .readRegisters _ => 0xF0FF
  | .unrecognized _ => 0x0000

/-- The match column of the opcode map (30_encoding.md R95); the catch-all row has none. -/
def rowBits : Instr → Word
  | .clearScreen => 0x00E0
  | .ret => 0x00EE
  | .jump _ => 0x1000
  | .call _ => 0x2000
  | .skipEq _ _ => 0x3000
  | .skipNe _ _ => 0x4000
  | .skipEqReg _ _ => 0x5000
  | .loadImm _ _ => 0x6000
  | .addImm _ _ => 0x7000
  | .move _ _ => 0x8000
  | .or _ _ => 0x8001
  | .and _ _ => 0x8002
  | .xor _ _ => 0x8003
  | .add _ _ => 0x8004
  | .sub _ _ => 0x8005
  | .shr _ _ => 0x8006
  | .subn _ _ => 0x8007
  | .shl _ _ => 0x800E
  | .skipNeReg _ _ => 0x9000
  | .loadI _ => 0xA000
  | .jumpAdd _ => 0xB000
  | .rand _ _ => 0xC000
  | .draw _ _ _ => 0xD000
  | .skipPressed _ => 0xE09E
  | .skipNotPressed _ => 0xE0A1
  | .readDelay _ => 0xF007
  | .waitKey _ => 0xF00A
  | .setDelay _ => 0xF015
  | .setSound _ => 0xF018
  | .addI _ => 0xF01E
  | .spriteDigit _ => 0xF029
  | .storeBCD _ => 0xF033
  | .storeRegisters _ => 0xF055
  | .readRegisters _ => 0xF065
  | .unrecognized _ => 0x0000

end Sys2Proof
end

