-- ==== Sys2Proof/Config.lean ====
section
/-! DEFINITION. What is fixed for one core (the parameters of 00_scope.md R7) and the free values: constants with no body, so that nothing can be proved of what they are. -/

namespace Sys2Proof

/-- FLAG_ALIAS: how Sub, Shr, Subn and Shl order their two register writes when VF is also an operand (43_alu.md R170). -/
inductive FlagAlias where
  | sequential
  | snapshotListed
  | flagLast
  deriving DecidableEq, Repr

/-- STACK_LIMIT: `unbounded` or a natural number from 1 up (00_scope.md R7). -/
inductive StackLimit where
  | unbounded
  | finite (limit : Nat) (pos : 1 ≤ limit)
  deriving DecidableEq, Repr

/-- The depth a finite STACK_LIMIT allows. -/
def StackLimit.depth : StackLimit → Option Nat
  | .unbounded => none
  | .finite limit _ => some limit

/-- The OPEN parameters of 00_scope.md R7, the arguments of construction (70_reset_and_hazards.md R340).
`font a` is the byte at address `a` of the font for 5 <= a < 80 (glyphs 1-F: glyph 0 is sourced),
`initMem a` the byte at every address from 80 up. -/
structure LaunchParams where
  font : Nat → Byte
  initMem : Nat → Byte
  flagAlias : FlagAlias
  stackLimit : StackLimit

/-- The keypad's answer to a query for which State lists none: free, for each query anew
(60_exceptions.md R311; log entry 7). -/
opaque Config.keyAnswer : Nat → Fin 16 → Bool

/-- The random source's answer to a request for which State lists none: free, for each request anew
(60_exceptions.md R312; log entry 8). -/
opaque Config.randomByte : Nat → Byte

/-- The choices that arrange ClearScreen's notifications: free, for each ClearScreen anew
(41_display.md R151; log entry 9). -/
opaque Config.clearPick : Nat → Nat → Nat

end Sys2Proof
end

