-- ==== Sys2Proof/Machine/State.lean ====
section
/-! DEFINITION. The state of the core (10_state.md), plain data, with the fatal values (60_exceptions.md R300), the host's inputs and the recorded events, the reasons a transaction does not happen, and the state after construction (70_reset_and_hazards.md R340). -/

namespace Sys2Proof.Machine

/-- A fatal value, written in full as 60_exceptions.md R300 writes it. -/
inductive Fatal where
  | unrecognized (raw : Word)
  | emptyStack (raw : Word)
  | spriteDigitOutOfRange (raw : Word) (value : Byte)
  | fetchOutOfRange (pc : Word)
  | memoryOutOfRange (raw : Word) (address : Nat)
  | keyIndexOutOfRange (raw : Word) (value : Byte)
  | stackOverflow (raw : Word)
  deriving DecidableEq, Repr

/-- The run status (10_state.md R29). -/
inductive Status where
  | running
  | halted (f : Fatal)
  deriving DecidableEq, Repr

/-- A call the host makes: one of the two transactions, or the image load (60_exceptions.md R314,
70_reset_and_hazards.md R341). -/
inductive HostCall where
  | step
  | tick
  | load (image : List Byte)
  deriving DecidableEq, Repr

/-- A capability event (40_execution_cycle.md R140): a notification to the pixel sink, a keypad
query with its answer, a request to the random source with its answer. -/
inductive Event where
  | notify (x : Fin 64) (y : Fin 32) (on : Bool)
  | keyQuery (key : Fin 16) (pressed : Bool)
  | randomRequest (answer : Byte)
  deriving DecidableEq, Repr

/-- Why the machine stops with a fault: never. Every error the spec names is a fatal value, whose
taking is a next state with status Halted (40_execution_cycle.md R137; log entry 1), so this type
has no constructor, and no step ends in a fault. -/
inductive Fault where
  deriving DecidableEq, Repr

/-- Why the machine gives a call no transition. -/
inductive Refusal where
  /-- Raised by exec for an instruction that has no meaning yet; no arm uses it. Safe. -/
  | notModelled (mnemonic : String)
  /-- Raised by any call in the status Halted (40_execution_cycle.md R131, 60_exceptions.md R309).
  Safe: the spec gives such a call no transition. -/
  | haltedCore
  /-- Raised by an image load that is not the first transaction (70_reset_and_hazards.md R341).
  Safe: the spec puts such a load outside the contract. -/
  | lateImageLoad
  deriving DecidableEq, Repr

/-- Memory: the cells that differ from what an unlisted address reads as, addresses rising. -/
abbrev Memory := List Host.Cell

/-- The framebuffer, column by column: `fb[x][y]` is FB[x][y] (10_state.md R27). -/
abbrev Screen := Vector (Vector Bool 32) 64

/-- The framebuffer with every cell false. -/
def Screen.blank : Screen := Vector.replicate 64 (Vector.replicate 32 false)

/-- The state: the spec's own (10_state.md R30), the parameters instructions read (00_scope.md R7),
the host's inputs, and the model's bookkeeping. -/
structure State where
  /-- V0-VF (R20). -/
  v : Vector Byte 16
  /-- The index register I (R22). -/
  iReg : Word
  /-- The program counter (R23). -/
  pc : Word
  /-- The call stack, the entry a Return pops first (R24). -/
  stack : List Word
  /-- The delay timer DT (R25). -/
  dt : Byte
  /-- The sound timer ST (R26). -/
  st : Byte
  /-- The framebuffer FB (R27). -/
  fb : Screen
  /-- Memory (R28). -/
  mem : Memory
  /-- The run status (R29). -/
  status : Status
  /-- The parameter FLAG_ALIAS; no transaction changes it (log entry 5). -/
  flagAlias : FlagAlias
  /-- The parameter STACK_LIMIT; no transaction changes it (log entry 6). -/
  stackLimit : StackLimit
  /-- The host's calls still to come; when empty the host calls step (log entry 10). -/
  calls : List HostCall
  /-- The keypad's answers still to come; when empty an answer is free (log entry 7). -/
  keyAnswers : List Bool
  /-- The random source's answers still to come; when empty an answer is free (log entry 8). -/
  randomBytes : List Byte
  /-- True until the first transaction: an image load is legal (log entry 11). -/
  awaitingImage : Bool
  /-- The capability events so far, oldest first (log entry 12). -/
  events : List Event
  /-- How many free values have been drawn (log entry 15). -/
  freeCount : Nat
  deriving DecidableEq, Repr

/-- The state right after construction, at the parameters' defaults and before the image load
(10_state.md R32). The font is what unlisted memory reads as (Ops.lean, `Memory.unlisted`). -/
def State.reset : State where
  v := Vector.replicate 16 0x00
  iReg := 0x0000
  pc := 0x0200
  stack := []
  dt := 0x00
  st := 0x00
  fb := Screen.blank
  mem := []
  status := .running
  flagAlias := .sequential
  stackLimit := .unbounded
  calls := []
  keyAnswers := []
  randomBytes := []
  awaitingImage := true
  events := []
  freeCount := 0

end Sys2Proof.Machine
end

