-- ==== Sys2Proof/Machine/Ops.lean ====
section
/-! DEFINITION. The named operations over the state: memory (20_memory.md), taking a fatal error (40_execution_cycle.md R137), the framebuffer controller's PixelWrite (41_display.md R150), the capability calls (60_exceptions.md R310-R312), the call stack and the program counter. -/

namespace Sys2Proof.Machine

/-! ### Memory -/

/-- The number of memory cells (20_memory.md R60). -/
def memSize : Nat := 0x1000

/-- Where the image is placed, and the reset pc (00_scope.md R7). -/
def programBase : Nat := 0x200

/-- The most bytes of an image that are placed (70_reset_and_hazards.md R341). -/
def maxImage : Nat := 3584

/-- The font table at FONT's default (20_memory.md R68, 93_implementation_defined.md G1). Glyph 0,
the first five bytes, is the source's; the others are PRESUMED (log entry 4). -/
def fontTable : List Byte :=
  [0xF0, 0x90, 0x90, 0x90, 0xF0, 0x20, 0x60, 0x20, 0x20, 0x70,
   0xF0, 0x10, 0xF0, 0x80, 0xF0, 0xF0, 0x10, 0xF0, 0x10, 0xF0,
   0x90, 0x90, 0xF0, 0x10, 0x10, 0xF0, 0x80, 0xF0, 0x10, 0xF0,
   0xF0, 0x80, 0xF0, 0x90, 0xF0, 0xF0, 0x10, 0x20, 0x40, 0x40] ++
  [0xF0, 0x90, 0xF0, 0x90, 0xF0, 0xF0, 0x90, 0xF0, 0x10, 0xF0,
   0xF0, 0x90, 0xF0, 0x90, 0x90, 0xE0, 0x90, 0xE0, 0x90, 0xE0,
   0xF0, 0x80, 0x80, 0x80, 0xF0, 0xE0, 0x90, 0x90, 0x90, 0xE0,
   0xF0, 0x80, 0xF0, 0x80, 0xF0, 0xF0, 0x80, 0xF0, 0x80, 0x80]

/-- What an unlisted address reads as: the font at 0x000-0x04F (20_memory.md R68), and 0x00
elsewhere (DESIGN CHOICE, unsafe, log entry 3: the spec leaves INIT_MEM open). -/
def Memory.unlisted (a : Nat) : Byte := fontTable.getD a 0x00

/-- The byte at an address. -/
def Memory.read : Memory → Nat → Byte
  | [], a => Memory.unlisted a
  | (k, b) :: rest, a => if k = a then b else Memory.read rest a

/-- A cell in front of a memory, left out where it holds what an unlisted address reads as. -/
def Memory.cons (a : Nat) (b : Byte) (m : Memory) : Memory :=
  if b = Memory.unlisted a then m else (a, b) :: m

/-- One byte stored, in the canonical form. -/
def Memory.write : Memory → Nat → Byte → Memory
  | [], a, b => Memory.cons a b []
  | (k, c) :: rest, a, b =>
    if a < k then Memory.cons a b ((k, c) :: rest)
    else if a = k then Memory.cons a b rest
    else (k, c) :: Memory.write rest a b

/-- Consecutive bytes stored from an address up, in that order. -/
def Memory.writeBytes : Memory → Nat → List Byte → Memory
  | m, _, [] => m
  | m, a, b :: bs => Memory.writeBytes (Memory.write m a b) (a + 1) bs

/-- The memory that holds `f a` at every address. -/
def Memory.ofBytes (f : Nat → Byte) : Memory :=
  (List.range memSize).filterMap fun a =>
    if f a = Memory.unlisted a then none else some (a, f a)

/-- The canonical form from an address on: addresses rise, lie in memory, and no cell holds what an
unlisted address reads as. -/
def Memory.wfFrom : Nat → Memory → Bool
  | _, [] => true
  | lo, (k, b) :: rest =>
    decide (lo ≤ k) && decide (k < memSize) && decide (b ≠ Memory.unlisted k) &&
      Memory.wfFrom (k + 1) rest

/-- The canonical form. -/
def Memory.wf (m : Memory) : Bool := Memory.wfFrom 0 m

/-- The range check of `count` byte accesses from `base` up, addresses over the naturals
(20_memory.md R61, R62): the lowest address above 0xFFF, if one is reached. -/
def firstOutOfRange (base count : Nat) : Option Nat :=
  if count = 0 ∨ base + count ≤ memSize then none else some (max base memSize)

/-! ### Fatal errors -/

/-- Taking a fatal error: the status becomes Halted, and nothing else changes
(40_execution_cycle.md R137, 60_exceptions.md R304). -/
def takeFatal (f : Fatal) (s : State) : Host.Outcome State Fault Refusal :=
  .next { s with status := .halted f }

/-- The spec's code of a fatal kind (60_exceptions.md R300). -/
def Fatal.code : Fatal → Nat
  | .unrecognized _ => 1
  | .emptyStack _ => 2
  | .spriteDigitOutOfRange _ _ => 3
  | .fetchOutOfRange _ => 4
  | .memoryOutOfRange _ _ => 5
  | .keyIndexOutOfRange _ _ => 6
  | .stackOverflow _ => 7

/-- The checks of a memory instruction come before its effect (40_execution_cycle.md R137): the
effect, or MemoryOutOfRange at the lowest bad address of the `count` bytes from I up. -/
def guardRange (raw : Word) (count : Nat) (effect : State → State) (s : State) :
    Host.Outcome State Fault Refusal :=
  match firstOutOfRange s.iReg.toNat count with
  | some a => takeFatal (.memoryOutOfRange raw a) s
  | none => .next (effect s)

/-! ### The framebuffer controller -/

/-- FB[x][y]. -/
def State.pixel (s : State) (x : Fin 64) (y : Fin 32) : Bool := s.fb[x.val][y.val]

/-- The framebuffer with one cell set. -/
def Screen.setCell (fb : Screen) (x : Fin 64) (y : Fin 32) (on : Bool) : Screen :=
  fb.set x.val (fb[x.val].set y.val on)

/-- An event recorded after those before it (60_exceptions.md R310). -/
def State.log (s : State) (e : Event) : State := { s with events := s.events ++ [e] }

/-- `PixelWrite(px, py, forceClear)` (41_display.md R150): outside the grid nothing happens; inside,
the cell is cleared or toggled and the sink is notified of its new value. -/
def pixelWrite (px py : Nat) (forceClear : Bool) (s : State) : State :=
  if h : px < 64 ∧ py < 32 then
    let x : Fin 64 := ⟨px, h.1⟩
    let y : Fin 32 := ⟨py, h.2⟩
    let on := if forceClear then false else !s.pixel x y
    { s with fb := s.fb.setCell x y on }.log (.notify x y on)
  else s

/-- Every cell of the grid once. -/
def gridCells : List (Fin 64 × Fin 32) :=
  (List.finRange 64).flatMap fun x => (List.finRange 32).map fun y => (x, y)

/-- A list rearranged by the choices `pick`; every arrangement is some `pick`'s. -/
def arrange {α : Type} (pick : Nat → Nat) : List α → List α
  | [] => []
  | c :: cs => (arrange pick cs).insertIdx (pick cs.length % (cs.length + 1)) c

/-- The order in which a ClearScreen visits the cells: free (41_display.md R151; log entry 9). -/
def clearOrder (draw : Nat) : List (Fin 64 × Fin 32) :=
  arrange (Config.clearPick draw) gridCells

/-- ClearScreen's 2048 forced clears, in a free order (41_display.md R151). The cells are cleared at
once: the final framebuffer does not depend on the order (log entry 14). -/
def clearGrid (s : State) : State :=
  { s with
    fb := Screen.blank
    events := s.events ++ (clearOrder s.freeCount).map fun c => .notify c.1 c.2 false
    freeCount := s.freeCount + 1 }

/-! ### The keypad and the random source -/

/-- `KeyPressed(k)`: one query (60_exceptions.md R311). The answer is the next the host gives, and
free where it gives none. -/
def keyPressed (k : Fin 16) (s : State) : Bool × State :=
  match s.keyAnswers with
  | a :: rest => (a, { s with keyAnswers := rest }.log (.keyQuery k a))
  | [] =>
    let a := Config.keyAnswer s.freeCount k
    (a, { s with freeCount := s.freeCount + 1 }.log (.keyQuery k a))

/-- `RandomByte()`: one request (60_exceptions.md R312). The answer is the next the host gives, and
free where it gives none. -/
def randomByte (s : State) : Byte × State :=
  match s.randomBytes with
  | r :: rest => (r, { s with randomBytes := rest }.log (.randomRequest r))
  | [] =>
    let r := Config.randomByte s.freeCount
    (r, { s with freeCount := s.freeCount + 1 }.log (.randomRequest r))

/-! ### The call stack and the program counter -/

/-- The stack holds as many entries as STACK_LIMIT allows (42_control_flow.md R162). -/
def State.stackFull (s : State) : Bool :=
  match s.stackLimit with
  | .unbounded => false
  | .finite limit _ => s.stack.length == limit

/-- The compensating offset: the pc written so that the advance gives `target`
(40_execution_cycle.md R135). -/
def State.aim (s : State) (target : Word) : State := { s with pc := target - 2 }

/-- A skip: the pc moves over the next instruction (40_execution_cycle.md R136). -/
def State.skipIf (s : State) (c : Bool) : State := { s with pc := if c then s.pc + 2 else s.pc }

/-- The uniform advance after an execute phase that raised no fatal error
(40_execution_cycle.md R134, R137). -/
def State.advance (s : State) : State :=
  match s.status with
  | .running => { s with pc := s.pc + 2 }
  | .halted _ => s

end Sys2Proof.Machine
end

