-- ==== Sys2Proof/Machine/Operands.lean ====
section
/-! DEFINITION. The operand forms: the registers V[x] (10_state.md R20), the memory operands I + k (44_index_memory.md R206), and the keypad remap of a register value (45_keypad_timers.md R220). -/

namespace Sys2Proof.Machine

/-- `V[r]` (10_state.md R20). -/
def State.getV (s : State) (r : Reg) : Byte := s.v[r.val]

/-- `V[r] <- b` (10_state.md R20). -/
def State.setV (s : State) (r : Reg) (b : Byte) : State := { s with v := s.v.set r.val b }

/-- VF (10_state.md R21). -/
def regF : Reg := 15

/-- The effective address I + k, over the naturals (44_index_memory.md R206). -/
def State.addressOf (s : State) (k : Nat) : Nat := s.iReg.toNat + k

/-- The byte at I + k, for an address that the range check has passed (20_memory.md R61). -/
def State.byteAt (s : State) (k : Nat) : Byte := s.mem.read (s.addressOf k)

/-- Bytes stored at I, I + 1, ... (20_memory.md R62). -/
def State.storeAtI (bs : List Byte) (s : State) : State :=
  { s with mem := s.mem.writeBytes (s.addressOf 0) bs }

/-- KEYPAD_PERM (45_keypad_timers.md R220). -/
def keypadPerm : List (Fin 16) := [13, 0, 1, 2, 4, 5, 6, 8, 9, 10, 12, 14, 3, 7, 11, 15]

/-- `Remap(v)`; none for v > 15 (45_keypad_timers.md R220). -/
def remap (b : Byte) : Option (Fin 16) := keypadPerm[b.toNat]?

/-- An instruction that remaps V[x]: KeyIndexOutOfRange before any query, or its effect on the key
(45_keypad_timers.md R220-R222, R224). -/
def withKey (raw : Word) (x : Reg) (effect : Fin 16 → State → State) (s : State) :
    Host.Outcome State Fault Refusal :=
  match remap (s.getV x) with
  | none => takeFatal (.keyIndexOutOfRange raw (s.getV x)) s
  | some k => .next (effect k s)

end Sys2Proof.Machine
end

