-- ==== Sys2Proof/Machine/Flags.lean ====
section
/-! DEFINITION. VF as a flag (10_state.md R21): the flag and result functions of Sub, Shr, Subn and Shl (43_alu.md R178-R181), and the two register writes under FLAG_ALIAS (R170). -/

namespace Sys2Proof.Machine

/-- 1 when true, 0 when false (00_scope.md R10). -/
def flagOf (c : Bool) : Byte := if c then 1 else 0

/-- flag(a, b) of Sub (43_alu.md R178). -/
def subFlag (a b : Byte) : Byte := flagOf (decide (a > b))

/-- result(a, b) of Sub (43_alu.md R178). -/
def subResult (a b : Byte) : Byte := a - b

/-- flag(a, b) of Subn (43_alu.md R180). -/
def subnFlag (a b : Byte) : Byte := flagOf (decide (b > a))

/-- result(a, b) of Subn (43_alu.md R180). -/
def subnResult (a b : Byte) : Byte := b - a

/-- flag(a) of Shr: bit 0 (43_alu.md R179). -/
def shrFlag (a _b : Byte) : Byte := a &&& 0x01

/-- result(a) of Shr (43_alu.md R179). -/
def shrResult (a _b : Byte) : Byte := a >>> 1

/-- flag(a) of Shl: the raw bit 7, 0x00 or 0x80 (43_alu.md R181). -/
def shlFlag (a _b : Byte) : Byte := a &&& 0x80

/-- result(a) of Shl (43_alu.md R181). -/
def shlResult (a _b : Byte) : Byte := a <<< 1

/-- The flag and the result written, in the order FLAG_ALIAS gives (43_alu.md R170). -/
def writeFlagged (flag result : Byte → Byte → Byte) (x y : Reg) (s : State) : State :=
  let a := s.getV x
  let b := s.getV y
  match s.flagAlias with
  | .sequential =>
    let s₁ := s.setV regF (flag a b)
    s₁.setV x (result (s₁.getV x) (s₁.getV y))
  | .snapshotListed => (s.setV regF (flag a b)).setV x (result a b)
  | .flagLast => (s.setV x (result a b)).setV regF (flag a b)

end Sys2Proof.Machine
end

