-- ==== Sys2Proof/Machine/Alu.lean ====
section
/-! DEFINITION. The execute phase of the register and ALU instructions (43_alu.md R171-R182). None raises a fatal error. -/

namespace Sys2Proof.Machine

/-- LoadImm (43_alu.md R171). -/
def execLoadImm (x : Reg) (kk : Byte) (s : State) : Host.Outcome State Fault Refusal :=
  .next (s.setV x kk)

/-- AddImm: wraps, no flag (43_alu.md R172). -/
def execAddImm (x : Reg) (kk : Byte) (s : State) : Host.Outcome State Fault Refusal :=
  .next (s.setV x (s.getV x + kk))

/-- Move (43_alu.md R173). -/
def execMove (x y : Reg) (s : State) : Host.Outcome State Fault Refusal :=
  .next (s.setV x (s.getV y))

/-- Or: VF is not reset (43_alu.md R174). -/
def execOr (x y : Reg) (s : State) : Host.Outcome State Fault Refusal :=
  .next (s.setV x (s.getV x ||| s.getV y))

/-- And (43_alu.md R175). -/
def execAnd (x y : Reg) (s : State) : Host.Outcome State Fault Refusal :=
  .next (s.setV x (s.getV x &&& s.getV y))

/-- Xor (43_alu.md R176). -/
def execXor (x y : Reg) (s : State) : Host.Outcome State Fault Refusal :=
  .next (s.setV x (s.getV x ^^^ s.getV y))

/-- Add: the sum is computed once and written to V[x] and to VF (43_alu.md R177). -/
def execAdd (x y : Reg) (s : State) : Host.Outcome State Fault Refusal :=
  let sum := s.getV x + s.getV y
  .next ((s.setV x sum).setV regF sum)

/-- Sub (43_alu.md R178). -/
def execSub (x y : Reg) (s : State) : Host.Outcome State Fault Refusal :=
  .next (writeFlagged subFlag subResult x y s)

/-- Shr: y is not used (43_alu.md R179). -/
def execShr (x y : Reg) (s : State) : Host.Outcome State Fault Refusal :=
  .next (writeFlagged shrFlag shrResult x y s)

/-- Subn (43_alu.md R180). -/
def execSubn (x y : Reg) (s : State) : Host.Outcome State Fault Refusal :=
  .next (writeFlagged subnFlag subnResult x y s)

/-- Shl: y is not used (43_alu.md R181). -/
def execShl (x y : Reg) (s : State) : Host.Outcome State Fault Refusal :=
  .next (writeFlagged shlFlag shlResult x y s)

/-- Rand: one request, whatever kk (43_alu.md R182). -/
def execRand (x : Reg) (kk : Byte) (s : State) : Host.Outcome State Fault Refusal :=
  let r := randomByte s
  .next (r.2.setV x (r.1 &&& kk))

end Sys2Proof.Machine
end

