-- ==== Sys2Proof/Machine/Control.lean ====
section
/-! DEFINITION. The execute phase of the control-flow instructions (42_control_flow.md R160-R167). The step adds 2 to pc after each (40_execution_cycle.md R134). -/

namespace Sys2Proof.Machine

/-- Return (42_control_flow.md R160): the popped entry is the address of the matching Call. -/
def execRet (s : State) : Host.Outcome State Fault Refusal :=
  match s.stack with
  | [] => takeFatal (.emptyStack (encode .ret)) s
  | entry :: rest => .next { s with stack := rest, pc := entry }

/-- Jump (42_control_flow.md R161). -/
def execJump (nnn : Addr12) (s : State) : Host.Outcome State Fault Refusal :=
  .next (s.aim (zext16 nnn))

/-- Call (42_control_flow.md R162): the entry pushed is the Call's own address. -/
def execCall (nnn : Addr12) (s : State) : Host.Outcome State Fault Refusal :=
  if s.stackFull then takeFatal (.stackOverflow (encode (.call nnn))) s
  else .next ({ s with stack := s.pc :: s.stack }.aim (zext16 nnn))

/-- SkipEq (42_control_flow.md R163). -/
def execSkipEq (x : Reg) (kk : Byte) (s : State) : Host.Outcome State Fault Refusal :=
  .next (s.skipIf (s.getV x == kk))

/-- SkipNe (42_control_flow.md R164). -/
def execSkipNe (x : Reg) (kk : Byte) (s : State) : Host.Outcome State Fault Refusal :=
  .next (s.skipIf (s.getV x != kk))

/-- SkipEqReg (42_control_flow.md R165). -/
def execSkipEqReg (x y : Reg) (s : State) : Host.Outcome State Fault Refusal :=
  .next (s.skipIf (s.getV x == s.getV y))

/-- SkipNeReg (42_control_flow.md R166). -/
def execSkipNeReg (x y : Reg) (s : State) : Host.Outcome State Fault Refusal :=
  .next (s.skipIf (s.getV x != s.getV y))

/-- JumpAdd (42_control_flow.md R167): always V0. -/
def execJumpAdd (nnn : Addr12) (s : State) : Host.Outcome State Fault Refusal :=
  .next (s.aim (zext16 nnn + (s.getV 0).setWidth 16))

end Sys2Proof.Machine
end

