-- ==== Sys2Proof/Machine/Display.lean ====
section
/-! DEFINITION. The execute phase of the display instructions ClearScreen and Draw (41_display.md R151, R152). -/

namespace Sys2Proof.Machine

/-- ClearScreen (41_display.md R151). -/
def execClearScreen (s : State) : Host.Outcome State Fault Refusal := .next (clearGrid s)

/-- The sprite bit in column `bit` from the left, the MSB first (41_display.md R152). -/
def spriteBit (b : Byte) (bit : Nat) : Bool := b.getLsbD (7 - bit)

/-- One sprite row: a PixelWrite for each 1 bit, from the MSB to the LSB (41_display.md R152). -/
def drawRow (px y : Nat) (b : Byte) (s : State) : State :=
  (List.range 8).foldl
    (fun s bit => if spriteBit b bit then pixelWrite (px + bit) y false s else s) s

/-- How many rows a Draw of height n reads from origin row py on: it stops at the first row with
`py + row > 32` (41_display.md R152). -/
def drawRowCount (py n : Nat) : Nat := min n (33 - py)

/-- The rows drawn, top row first, row `r` from the byte at I + r (41_display.md R152). -/
def drawRows (px py count : Nat) (s : State) : State :=
  (List.range count).foldl (fun t row => drawRow px (py + row) (t.byteAt row) t) s

/-- The sprite origin's column: V[x] mod 64 (41_display.md R152). -/
def drawOriginX (x : Reg) (s : State) : Nat := (s.getV x).toNat % 64

/-- The sprite origin's row: V[y] mod 32 (41_display.md R152). -/
def drawOriginY (y : Reg) (s : State) : Nat := (s.getV y).toNat % 32

/-- Draw (41_display.md R152): the addresses of the rows it will read are checked before any pixel
changes; VF is not written (90_conflicts.md C1). -/
def execDraw (x y n : Fin 16) (s : State) : Host.Outcome State Fault Refusal :=
  let count := drawRowCount (drawOriginY y s) n.val
  guardRange (encode (.draw x y n)) count
    (drawRows (drawOriginX x s) (drawOriginY y s) count) s

end Sys2Proof.Machine
end

