-- ==== Sys2Proof/Machine/Index.lean ====
section
/-! DEFINITION. The execute phase of the index-register and memory instructions (44_index_memory.md R200-R205). None changes I as a side effect of an access (R206). -/

namespace Sys2Proof.Machine

/-- LoadI (44_index_memory.md R200). -/
def execLoadI (nnn : Addr12) (s : State) : Host.Outcome State Fault Refusal :=
  .next { s with iReg := zext16 nnn }

/-- AddI: modulo 65536, no flag (44_index_memory.md R201). -/
def execAddI (x : Reg) (s : State) : Host.Outcome State Fault Refusal :=
  .next { s with iReg := s.iReg + (s.getV x).setWidth 16 }

/-- SpriteDigit (44_index_memory.md R202). -/
def execSpriteDigit (x : Reg) (s : State) : Host.Outcome State Fault Refusal :=
  if s.getV x > 9 then takeFatal (.spriteDigitOutOfRange (encode (.spriteDigit x)) (s.getV x)) s
  else .next { s with iReg := 5 * (s.getV x).setWidth 16 }

/-- The hundreds, tens and units digits of a byte (44_index_memory.md R203). -/
def bcdDigits (b : Byte) : List Byte :=
  [BitVec.ofNat 8 (b.toNat / 100), BitVec.ofNat 8 (b.toNat / 10 % 10), BitVec.ofNat 8 (b.toNat % 10)]

/-- StoreBCD (44_index_memory.md R203). -/
def execStoreBCD (x : Reg) (s : State) : Host.Outcome State Fault Refusal :=
  guardRange (encode (.storeBCD x)) 3 (State.storeAtI (bcdDigits (s.getV x))) s

/-- StoreRegisters (44_index_memory.md R204). -/
def execStoreRegisters (x : Reg) (s : State) : Host.Outcome State Fault Refusal :=
  guardRange (encode (.storeRegisters x)) (x.val + 1)
    (State.storeAtI (s.v.toList.take (x.val + 1))) s

/-- V0..Vx loaded from I, I + 1, ... (44_index_memory.md R205). -/
def loadRegisters (x : Reg) (s : State) : State :=
  { s with v := s.v.mapFinIdx fun r b _ => if r ≤ x.val then s.byteAt r else b }

/-- ReadRegisters (44_index_memory.md R205). -/
def execReadRegisters (x : Reg) (s : State) : Host.Outcome State Fault Refusal :=
  guardRange (encode (.readRegisters x)) (x.val + 1) (loadRegisters x) s

end Sys2Proof.Machine
end

