-- ==== Sys2Proof/Machine/Keypad.lean ====
section
/-! DEFINITION. The execute phase of the keypad and timer instructions (45_keypad_timers.md R221-R226), and of Unrecognized (40_execution_cycle.md R138). -/

namespace Sys2Proof.Machine

/-- The effect of SkipPressed on a key (45_keypad_timers.md R221). -/
def skipOnPressed (k : Fin 16) (s : State) : State :=
  let q := keyPressed k s
  q.2.skipIf q.1

/-- SkipPressed (45_keypad_timers.md R221). -/
def execSkipPressed (x : Reg) (s : State) : Host.Outcome State Fault Refusal :=
  withKey (encode (.skipPressed x)) x skipOnPressed s

/-- The effect of SkipNotPressed on a key (45_keypad_timers.md R222). -/
def skipOnReleased (k : Fin 16) (s : State) : State :=
  let q := keyPressed k s
  q.2.skipIf !q.1

/-- SkipNotPressed (45_keypad_timers.md R222). -/
def execSkipNotPressed (x : Reg) (s : State) : Host.Outcome State Fault Refusal :=
  withKey (encode (.skipNotPressed x)) x skipOnReleased s

/-- ReadDelay (45_keypad_timers.md R223). -/
def execReadDelay (x : Reg) (s : State) : Host.Outcome State Fault Refusal :=
  .next (s.setV x s.dt)

/-- The effect of WaitKey on a key: while it is not pressed the pc is rewound, so that the advance
gives the WaitKey's own address (45_keypad_timers.md R224). -/
def waitOnKey (k : Fin 16) (s : State) : State :=
  let q := keyPressed k s
  { q.2 with pc := if q.1 then q.2.pc else q.2.pc - 2 }

/-- WaitKey: no register is written (45_keypad_timers.md R224). -/
def execWaitKey (x : Reg) (s : State) : Host.Outcome State Fault Refusal :=
  withKey (encode (.waitKey x)) x waitOnKey s

/-- SetDelay (45_keypad_timers.md R225). -/
def execSetDelay (x : Reg) (s : State) : Host.Outcome State Fault Refusal :=
  .next { s with dt := s.getV x }

/-- SetSound (45_keypad_timers.md R226). -/
def execSetSound (x : Reg) (s : State) : Host.Outcome State Fault Refusal :=
  .next { s with st := s.getV x }

/-- Unrecognized (40_execution_cycle.md R138). -/
def execUnrecognized (raw : Word) (s : State) : Host.Outcome State Fault Refusal :=
  takeFatal (.unrecognized raw) s

end Sys2Proof.Machine
end

