-- ==== Sys2Proof/Machine/Cycle.lean ====
section
/-! DEFINITION. The transactions of the core (40_execution_cycle.md R130, 60_exceptions.md R307, 70_reset_and_hazards.md R341): the instruction step, the timer tick, the image load, and the choice among them by the host's calls; and the placing of one word where the next step fetches. -/

namespace Sys2Proof.Machine

/-- The fetched opcode, big-endian, of a pc in range (20_memory.md R63, 40_execution_cycle.md R132). -/
def fetchWord (s : State) : Word :=
  joinBytes (s.mem.read s.pc.toNat) (s.mem.read (s.pc.toNat + 1))

/-- The end of a step: the uniform advance (40_execution_cycle.md R134). -/
def completeStep : Host.Outcome State Fault Refusal → Host.Outcome State Fault Refusal
  | .next t => .next t.advance
  | .fault f => .fault f
  | .refused r => .refused r

/-- `step()` in the status Running (40_execution_cycle.md R130, 20_memory.md R65). -/
def instructionStep (s : State) : Host.Outcome State Fault Refusal :=
  if s.pc.toNat + 1 > 0xFFF then takeFatal (.fetchOutOfRange s.pc) s
  else completeStep (exec (decode (fetchWord s)) s)

/-- A timer decremented by one, saturating at zero (60_exceptions.md R307). -/
def countDown (b : Byte) : Byte := if b > 0 then b - 1 else b

/-- `tick_timer()` in the status Running (60_exceptions.md R307). -/
def tickTimer (s : State) : State := { s with dt := countDown s.dt, st := countDown s.st }

/-- The image load (70_reset_and_hazards.md R341). -/
def loadImage (image : List Byte) (s : State) : State :=
  { s with mem := s.mem.writeBytes programBase (image.take maxImage) }

/-- The host's next call: step when none is listed (log entry 10). -/
def State.nextCall (s : State) : HostCall := s.calls.headD .step

/-- The state in which the next call runs: it is listed no more, and the time for an image load is
over (log entries 10, 11). -/
def State.beginCall (s : State) : State := { s with calls := s.calls.tail, awaitingImage := false }

/-- One transaction: the host's next call, refused in the status Halted (40_execution_cycle.md R131,
60_exceptions.md R309, R314); a load only as the first one (70_reset_and_hazards.md R341). -/
def transact (s : State) : Host.Outcome State Fault Refusal :=
  match s.status with
  | .halted _ => .refused .haltedCore
  | .running =>
    match s.nextCall with
    | .step => instructionStep s.beginCall
    | .tick => .next (tickTimer s.beginCall)
    | .load image =>
      if s.awaitingImage then .next (loadImage image s.beginCall) else .refused .lateImageLoad

/-- A word placed where the next step fetches, the host's next call a step, the core running. -/
def placeWord (s : State) (raw : Word) : State :=
  { s with
    mem := s.mem.writeBytes s.pc.toNat [(splitWord raw).1, (splitWord raw).2]
    calls := .step :: s.calls
    status := .running }

end Sys2Proof.Machine
end

