-- ==== Sys2Proof/Machine/Step.lean ====
section
/-! DEFINITION. The step of the machine: one transaction of the core, as the host's calls choose it. -/

namespace Sys2Proof.Machine

/-- One transaction (60_exceptions.md R314, 70_reset_and_hazards.md R348). -/
def step (s : State) : Host.Outcome State Fault Refusal := transact s

/-- The state with the instruction of an opcode, numbered as spec/opcode_table.json numbers its
bits, placed where step fetches next; it stands for the image load (log entry 11). -/
def State.withFetchWord (s : State) (nbits w : Nat) : State :=
  placeWord s (BitVec.ofNat 16 (w % 2 ^ nbits))

end Sys2Proof.Machine
end

