-- ==== Sys2Proof/Machine/Launch.lean ====
section
/-! DEFINITION. Construction for every value of the OPEN parameters (70_reset_and_hazards.md R340). -/

namespace Sys2Proof.Machine

/-- Glyph 0 of the font, the source's (20_memory.md R68). -/
def glyphZero : List Byte := [0xF0, 0x90, 0x90, 0x90, 0xF0]

/-- The byte construction leaves at an address: glyph 0, FONT's glyphs 1-F, INIT_MEM above
(20_memory.md R68, R69). -/
def initialByte (p : LaunchParams) (a : Nat) : Byte :=
  if a < 5 then glyphZero.getD a 0x00 else if a < 80 then p.font a else p.initMem a

/-- Construction (70_reset_and_hazards.md R340, 10_state.md R32). -/
def State.construct (p : LaunchParams) : State :=
  { State.reset with
    mem := Memory.ofBytes (initialByte p)
    flagAlias := p.flagAlias
    stackLimit := p.stackLimit }

/-- The parameters at State.reset: FONT's default, INIT_MEM 0x00, `sequential`, `unbounded`. -/
def defaultParams : LaunchParams where
  font := Memory.unlisted
  initMem := Memory.unlisted
  flagAlias := .sequential
  stackLimit := .unbounded

end Sys2Proof.Machine
end

