-- ==== Sys2Proof/Safety.lean ====
section
/-! DEFINITION. The terms claims use: the opcodes of a pattern as numbers, the parts of the state and what it means to keep them, the spec's arithmetic over naturals, the invariants, and the screen a pixel sink shows. -/

namespace Sys2Proof.Machine

/-! ### Opcodes as numbers (30_encoding.md R90, R91) -/

/-- A pattern with field nnn: `bits` is its match value. -/
def opNNN (bits : Nat) (nnn : Addr12) : Word := BitVec.ofNat 16 (bits + nnn.toNat)

/-- A pattern with fields x and kk. -/
def opXKK (bits : Nat) (x : Reg) (kk : Byte) : Word :=
  BitVec.ofNat 16 (bits + 256 * x.val + kk.toNat)

/-- A pattern with field x. -/
def opX (bits : Nat) (x : Reg) : Word := BitVec.ofNat 16 (bits + 256 * x.val)

/-- A pattern with fields x and y. -/
def opXY (bits : Nat) (x y : Reg) : Word := BitVec.ofNat 16 (bits + 256 * x.val + 16 * y.val)

/-- A pattern with fields x, y and n. -/
def opXYN (bits : Nat) (x y n : Fin 16) : Word :=
  BitVec.ofNat 16 (bits + 256 * x.val + 16 * y.val + n.val)

/-! ### Frames -/

/-- The parts of the state. -/
inductive Part where
  | regs | index | pc | stack | delay | sound | screen | memory | status | flagAlias | stackLimit
  | calls | keyAnswers | randomBytes | awaitingImage | events | freeCount
  deriving DecidableEq, Repr

/-- A part reads in `t` as it did in `s`. -/
def Keeps (s t : State) : Part → Prop
  | .regs => ∀ r, t.getV r = s.getV r
  | .index => t.iReg = s.iReg
  | .pc => t.pc = s.pc
  | .stack => t.stack = s.stack
  | .delay => t.dt = s.dt
  | .sound => t.st = s.st
  | .screen => ∀ x y, t.pixel x y = s.pixel x y
  | .memory => ∀ a, t.mem.read a = s.mem.read a
  | .status => t.status = s.status
  | .flagAlias => t.flagAlias = s.flagAlias
  | .stackLimit => t.stackLimit = s.stackLimit
  | .calls => t.calls = s.calls
  | .keyAnswers => t.keyAnswers = s.keyAnswers
  | .randomBytes => t.randomBytes = s.randomBytes
  | .awaitingImage => t.awaitingImage = s.awaitingImage
  | .events => t.events = s.events
  | .freeCount => t.freeCount = s.freeCount

/-- Every part outside the list reads as before. -/
def KeepsAllBut (parts : List Part) (s t : State) : Prop := ∀ p, p ∉ parts → Keeps s t p

/-- Every register outside the list holds what it held. -/
def RegsKeptBut (rs : List Reg) (s t : State) : Prop := ∀ r, r ∉ rs → t.getV r = s.getV r

/-- Every byte outside the `count` bytes from `base` up reads as before. -/
def MemoryKeptOutside (base count : Nat) (s t : State) : Prop :=
  ∀ a, (a < base ∨ base + count ≤ a) → t.mem.read a = s.mem.read a

/-- The parts an instruction may write when it raises no fatal error (10_state.md R21-R27, R29,
20_memory.md R66, 40_execution_cycle.md R135, R136, R140). -/
def partsWritten : Instr → List Part
  | .clearScreen => [.screen, .events, .freeCount]
  | .ret => [.pc, .stack]
  | .jump _ => [.pc]
  | .call _ => [.pc, .stack]
  | .skipEq _ _ => [.pc]
  | .skipNe _ _ => [.pc]
  | .skipEqReg _ _ => [.pc]
  | .loadImm _ _ => [.regs]
  | .addImm _ _ => [.regs]
  | .move _ _ => [.regs]
  | .or _ _ => [.regs]
  | .and _ _ => [.regs]
  | .xor _ _ => [.regs]
  | .add _ _ => [.regs]
  | .sub _ _ => [.regs]
  | .shr _ _ => [.regs]
  | .subn _ _ => [.regs]
  | .shl _ _ => [.regs]
  | .skipNeReg _ _ => [.pc]
  | .loadI _ => [.index]
  | .jumpAdd _ => [.pc]
  | .rand _ _ => [.regs, .randomBytes, .events, .freeCount]
  | .draw _ _ _ => [.screen, .events]
  | .skipPressed _ => [.pc, .keyAnswers, .events, .freeCount]
  | .skipNotPressed _ => [.pc, .keyAnswers, .events, .freeCount]
  | .readDelay _ => [.regs]
  | .waitKey _ => [.pc, .keyAnswers, .events, .freeCount]
  | .setDelay _ => [.delay]
  | .setSound _ => [.sound]
  | .addI _ => [.index]
  | .spriteDigit _ => [.index]
  | .storeBCD _ => [.memory]
  | .storeRegisters _ => [.memory]
  | .readRegisters _ => [.regs]
  | .unrecognized _ => []

/-- The registers an instruction may write (10_state.md R21, 43_alu.md R170-R182,
44_index_memory.md R205, 45_keypad_timers.md R223). -/
def regsWritten : Instr → Reg → Bool
  | .loadImm x _, r => r == x
  | .addImm x _, r => r == x
  | .move x _, r => r == x
  | .or x _, r => r == x
  | .and x _, r => r == x
  | .xor x _, r => r == x
  | .add x _, r => r == x || r == 15
  | .sub x _, r => r == x || r == 15
  | .shr x _, r => r == x || r == 15
  | .subn x _, r => r == x || r == 15
  | .shl x _, r => r == x || r == 15
  | .rand x _, r => r == x
  | .readDelay x, r => r == x
  | .readRegisters x, r => decide (r ≤ x)
  | .clearScreen, _ => false
  | .ret, _ => false
  | .jump _, _ => false
  | .call _, _ => false
  | .skipEq _ _, _ => false
  | .skipNe _ _, _ => false
  | .skipEqReg _ _, _ => false
  | .skipNeReg _ _, _ => false
  | .loadI _, _ => false
  | .jumpAdd _, _ => false
  | .draw _ _ _, _ => false
  | .skipPressed _, _ => false
  | .skipNotPressed _, _ => false
  | .waitKey _, _ => false
  | .setDelay _, _ => false
  | .setSound _, _ => false
  | .addI _, _ => false
  | .spriteDigit _, _ => false
  | .storeBCD _, _ => false
  | .storeRegisters _, _ => false
  | .unrecognized _, _ => false

/-- The capability events one execution of an instruction records when it raises no fatal error
(40_execution_cycle.md R140). -/
def eventsAllowed : Instr → List Event → Prop
  | .clearScreen, new => new.length = 2048 ∧ ∀ e ∈ new, ∃ x y, e = .notify x y false
  | .draw _ _ _, new => ∀ e ∈ new, ∃ x y on, e = .notify x y on
  | .skipPressed _, new => ∃ k a, new = [.keyQuery k a]
  | .skipNotPressed _, new => ∃ k a, new = [.keyQuery k a]
  | .waitKey _, new => ∃ k a, new = [.keyQuery k a]
  | .rand _ _, new => ∃ r, new = [.randomRequest r]
  | .ret, new => new = []
  | .jump _, new => new = []
  | .call _, new => new = []
  | .skipEq _ _, new => new = []
  | .skipNe _ _, new => new = []
  | .skipEqReg _ _, new => new = []
  | .loadImm _ _, new => new = []
  | .addImm _ _, new => new = []
  | .move _ _, new => new = []
  | .or _ _, new => new = []
  | .and _ _, new => new = []
  | .xor _ _, new => new = []
  | .add _ _, new => new = []
  | .sub _ _, new => new = []
  | .shr _ _, new => new = []
  | .subn _ _, new => new = []
  | .shl _ _, new => new = []
  | .skipNeReg _ _, new => new = []
  | .loadI _, new => new = []
  | .jumpAdd _, new => new = []
  | .readDelay _, new => new = []
  | .setDelay _, new => new = []
  | .setSound _, new => new = []
  | .addI _, new => new = []
  | .spriteDigit _, new => new = []
  | .storeBCD _, new => new = []
  | .storeRegisters _, new => new = []
  | .readRegisters _, new => new = []
  | .unrecognized _, new => new = []

/-! ### The spec's arithmetic (00_scope.md R10) -/

/-- `(a - b) mod 256`. -/
def subMod (a b : Byte) : Byte := BitVec.ofNat 8 ((256 + a.toNat - b.toNat) % 256)

/-- `(a > b) ? 1 : 0`. -/
def gtFlag (a b : Byte) : Byte := if a.toNat > b.toNat then 1 else 0

/-- `a mod 2`. -/
def bitZero (a : Byte) : Byte := BitVec.ofNat 8 (a.toNat % 2)

/-- `a div 2`. -/
def halved (a : Byte) : Byte := BitVec.ofNat 8 (a.toNat / 2)

/-- The raw bit 7: 0x00 or 0x80. -/
def bitSeven (a : Byte) : Byte := if a.toNat ≥ 128 then 0x80 else 0x00

/-- `(a * 2) mod 256`. -/
def doubled (a : Byte) : Byte := BitVec.ofNat 8 (a.toNat * 2 % 256)

/-! ### Fatal values -/

/-- The state a fatal error leaves: only the status differs (40_execution_cycle.md R137). -/
def State.haltedBy (s : State) (f : Fatal) : State := { s with status := .halted f }

/-- The opcode a fatal value carries (60_exceptions.md R300). -/
def Fatal.raw : Fatal → Option Word
  | .unrecognized raw => some raw
  | .emptyStack raw => some raw
  | .spriteDigitOutOfRange raw _ => some raw
  | .fetchOutOfRange _ => none
  | .memoryOutOfRange raw _ => some raw
  | .keyIndexOutOfRange raw _ => some raw
  | .stackOverflow raw => some raw

/-- The one kind of fatal error an instruction can raise, by its code (60_exceptions.md R300, R303). -/
def fatalCodeOf : Instr → Option Nat
  | .unrecognized _ => some 1
  | .ret => some 2
  | .spriteDigit _ => some 3
  | .draw _ _ _ => some 5
  | .storeBCD _ => some 5
  | .storeRegisters _ => some 5
  | .readRegisters _ => some 5
  | .skipPressed _ => some 6
  | .skipNotPressed _ => some 6
  | .waitKey _ => some 6
  | .call _ => some 7
  | .clearScreen => none
  | .jump _ => none
  | .skipEq _ _ => none
  | .skipNe _ _ => none
  | .skipEqReg _ _ => none
  | .loadImm _ _ => none
  | .addImm _ _ => none
  | .move _ _ => none
  | .or _ _ => none
  | .and _ _ => none
  | .xor _ _ => none
  | .add _ _ => none
  | .sub _ _ => none
  | .shr _ _ => none
  | .subn _ _ => none
  | .shl _ _ => none
  | .skipNeReg _ _ => none
  | .loadI _ => none
  | .jumpAdd _ => none
  | .rand _ _ => none
  | .readDelay _ => none
  | .setDelay _ => none
  | .setSound _ => none
  | .addI _ => none

/-- A fatal value agrees with the state it left: it carries the bad pc, or the opcode at pc and a
value that is out of range (60_exceptions.md R300, R304). -/
def Fatal.explainedBy (s : State) : Fatal → Prop
  | .fetchOutOfRange pc => pc = s.pc ∧ s.pc.toNat + 1 > 0xFFF
  | .unrecognized raw => raw = fetchWord s ∧ illegalWord raw = true
  | .emptyStack raw => raw = fetchWord s ∧ raw = 0x00EE ∧ s.stack = []
  | .spriteDigitOutOfRange raw b => raw = fetchWord s ∧ b.toNat > 9
  | .memoryOutOfRange raw a => raw = fetchWord s ∧ a > 0xFFF
  | .keyIndexOutOfRange raw b => raw = fetchWord s ∧ b.toNat > 15
  | .stackOverflow raw => raw = fetchWord s ∧ s.stackLimit.depth = some s.stack.length

/-! ### Invariants -/

/-- Memory is in canonical form (20_memory.md R60); the stack is no deeper than STACK_LIMIT and
holds only addresses a Call can be fetched from (10_state.md R24, 42_control_flow.md R160); a fatal
status agrees with the state (60_exceptions.md R304). -/
def Inv (s : State) : Prop :=
  s.mem.wf = true ∧
  (∀ limit, s.stackLimit.depth = some limit → s.stack.length ≤ limit) ∧
  (∀ e ∈ s.stack, e.toNat + 1 ≤ 0xFFF) ∧
  (∀ f, s.status = .halted f → f.explainedBy s)

/-- A sink's screen after one event. -/
def showEvent (screen : Screen) : Event → Screen
  | .notify x y on => screen.setCell x y on
  | .keyQuery _ _ => screen
  | .randomRequest _ => screen

/-- The screen of a pixel sink that starts blank and applies every notification in order. -/
def sinkScreen (events : List Event) : Screen := events.foldl showEvent Screen.blank

/-- The sink shows the framebuffer: "mirrored by notifying the PixelSink capability" (10_state.md R27). -/
def SinkMirrors (s : State) : Prop := sinkScreen s.events = s.fb

/-! ### Draw -/

/-- The 1 bits of a sprite that fall inside the grid, row by row from the top and within a row from
the MSB, as cells of the grid (41_display.md R152). `byteOf r` is the sprite byte of row r. -/
def spriteCells (px py count : Nat) (byteOf : Nat → Byte) : List (Fin 64 × Fin 32) :=
  (List.range count).flatMap fun row =>
    ((List.range 8).filter fun bit =>
        spriteBit (byteOf row) bit && decide (px + bit < 64) && decide (py + row < 32)).map
      fun bit => (Fin.ofNat 64 (px + bit), Fin.ofNat 32 (py + row))

end Sys2Proof.Machine
end

