-- ==== Sys2Proof/Certificates/Slice0/Obligations.lean ====
section
/-! DEFINITION. The statements for the provers, each from the rules of spec/ its docstring names. -/

open Sys2Proof Sys2Proof.Machine

/-! ### Encoding and decoding -/

/-- 30_encoding.md R93, R95, R100: the decoder reads every instruction back from its opcode, with
every operand. -/
def Obligations.DecodeReadsBackEncode : Prop :=
  ∀ i : Instr, wellFormed i = true → decode (encode i) = i

/-- 30_encoding.md R93, R100: every word decodes to an instruction, and no bit of it is lost. -/
def Obligations.EncodeReadsBackDecode : Prop :=
  ∀ raw : Word, wellFormed (decode raw) = true ∧ encode (decode raw) = raw

/-- 30_encoding.md R94: a word matches the row of an instruction, `(raw & mask) == match`, exactly
when it decodes to that row; so at most one row matches, and a word that matches none is
Unrecognized. -/
def Obligations.WordsDecodeByTheirRow : Prop :=
  (∀ (raw : Word) (i : Instr), (∀ w, i ≠ .unrecognized w) →
    (raw &&& rowMask i = rowBits i ↔
      rowMask (decode raw) = rowMask i ∧ rowBits (decode raw) = rowBits i)) ∧
  (∀ raw : Word, (∀ i : Instr, (∀ w, i ≠ .unrecognized w) → raw &&& rowMask i ≠ rowBits i) →
    decode raw = .unrecognized raw)

/-- 30_encoding.md R96: the illegal words, grouped by major nibble. -/
def Obligations.IllegalWordsAreUnrecognized : Prop :=
  ∀ raw : Word, decode raw = .unrecognized raw ↔
    let major := raw.toNat / 4096
    let low := raw.toNat % 256
    let n := raw.toNat % 16
    (major = 0x0 ∧ raw.toNat ≠ 0x00E0 ∧ raw.toNat ≠ 0x00EE) ∨
    ((major = 0x5 ∨ major = 0x9) ∧ n ≠ 0) ∨
    (major = 0x8 ∧ n ∈ [0x8, 0x9, 0xA, 0xB, 0xC, 0xD, 0xF]) ∨
    (major = 0xE ∧ low ∉ [0x9E, 0xA1]) ∨
    (major = 0xF ∧ low ∉ [0x07, 0x0A, 0x15, 0x18, 0x1E, 0x29, 0x33, 0x55, 0x65])

/-- 95_test_vectors.md W4, V-E2 to V-E17: words read off the spec's tables. -/
def Obligations.SampleWordsDecode : Prop :=
  decode 0x00E0 = .clearScreen ∧ decode 0x00EE = .ret ∧ decode 0x00E1 = .unrecognized 0x00E1 ∧
  decode 0x1204 = .jump 0x204 ∧ decode 0x5011 = .unrecognized 0x5011 ∧
  decode 0x8008 = .unrecognized 0x8008 ∧ decode 0x80E6 = .shr 0x0 0xE ∧
  decode 0x830E = .shl 0x3 0x0 ∧ decode 0xB123 = .jumpAdd 0x123 ∧
  decode 0xC40F = .rand 0x4 0x0F ∧ decode 0xD015 = .draw 0x0 0x1 0x5 ∧
  decode 0xEFA1 = .skipNotPressed 0xF ∧ decode 0xF01E = .addI 0x0 ∧
  decode 0xF0FF = .unrecognized 0xF0FF ∧ decode 0xF165 = .readRegisters 0x1

/-! ### The step -/

/-- 40_execution_cycle.md R130, R132-R134, 20_memory.md R63, R65: in the status Running a step
fetches two bytes big-endian, executes the decoded instruction and, unless that raised a fatal
error, adds 2 to pc; a pc whose second byte lies outside memory is fatal before any read.
`beginCall` takes the step off the host's list and ends the time for an image load (the model's
bookkeeping, log entries 10 and 11). -/
def Obligations.StepRunsTheDecodedInstruction : Prop :=
  ∀ (s : State) (w : Word), s.status = .running → s.nextCall = .step →
    w.toNat = 256 * (s.mem.read s.pc.toNat).toNat + (s.mem.read (s.pc.toNat + 1)).toNat →
    (s.pc.toNat + 1 ≤ 0xFFF → ∀ t, exec (decode w) s.beginCall = .next t →
      (t.status = .running → step s = .next { t with pc := t.pc + 2 }) ∧
      (∀ f, t.status = .halted f → step s = .next t)) ∧
    (s.pc.toNat + 1 > 0xFFF →
      step s = .next (s.beginCall.haltedBy (.fetchOutOfRange s.pc)))

/-- 40_execution_cycle.md R131, 60_exceptions.md R309: in the status Halted no step and no tick has
a transition. An image load there is refused too, which is the model's reading of R341 (log entry 2). -/
def Obligations.HaltedCoreRefusesEveryCall : Prop :=
  ∀ (s : State) (f : Fatal), s.status = .halted f → step s = .refused .haltedCore

/-- 40_execution_cycle.md R138, 30_encoding.md R100: executing Unrecognized raises its fatal error,
carrying the whole word, and nothing else; in a step the pc stays at the word's own address.
`beginCall` takes the step off the host's list and ends the time for an image load, which is the
model's bookkeeping (log entries 10 and 11). -/
def Obligations.UnrecognizedIsFatal : Prop :=
  ∀ (raw : Word) (s : State), illegalWord raw = true →
    decode raw = .unrecognized raw ∧
    exec (.unrecognized raw) s = .next (s.haltedBy (.unrecognized raw)) ∧
    (s.status = .running → s.nextCall = .step → s.pc.toNat + 1 ≤ 0xFFF → fetchWord s = raw →
      step s = .next (s.beginCall.haltedBy (.unrecognized raw)))

/-- 40_execution_cycle.md R137, 60_exceptions.md R304: a fatal error sets the status and changes
nothing else of the core. In a step, `beginCall` also takes the call off the host's list and ends the
time for an image load, which is the model's bookkeeping (log entries 10 and 11). -/
def Obligations.FatalChangesOnlyTheStatus : Prop :=
  (∀ (i : Instr) (s t : State) (f : Fatal), s.status = .running → exec i s = .next t →
    t.status = .halted f → t = (s.haltedBy f)) ∧
  (∀ (s t : State) (f : Fatal), step s = .next t → t.status = .halted f →
    t = (s.beginCall.haltedBy f))

/-- 40_execution_cycle.md R139, 60_exceptions.md R307, 70_reset_and_hazards.md R341: in the status
Running a step ends in Ok or a fatal error, both next states (log entry 1), a tick has its effect, and
an image load cannot fail, unless it comes too late (R341, in the form of log entry 11). The host's next
call is the model's list (log entry 10). -/
def Obligations.RunningCoreAlwaysMoves : Prop :=
  ∀ s : State, s.status = .running →
    (∀ image, s.nextCall = .load image → s.awaitingImage = true) → ∃ t, step s = .next t

/-- 60_exceptions.md R300, R303: the one kind of fatal error each instruction can raise, carrying
that instruction's opcode. -/
def Obligations.OneKindOfFatalPerInstruction : Prop :=
  ∀ (i : Instr) (s t : State) (f : Fatal), s.status = .running → exec i s = .next t →
    t.status = .halted f → fatalCodeOf i = some f.code ∧ f.raw = some (encode i)

/-! ### Control flow -/

/-- 42_control_flow.md R161. -/
def Obligations.JumpReachesItsTarget : Prop :=
  ∀ (nnn : Addr12) (s : State), decode (opNNN 0x1000 nnn) = .jump nnn ∧
    ∃ t, exec (.jump nnn) s = .next t ∧ t.pc.toNat = (nnn.toNat + 65536 - 2) % 65536 ∧
      (t.pc + 2).toNat = nnn.toNat ∧ KeepsAllBut [.pc] s t

/-- 42_control_flow.md R162. -/
def Obligations.CallPushesItsOwnAddress : Prop :=
  ∀ (nnn : Addr12) (s : State), decode (opNNN 0x2000 nnn) = .call nnn ∧
    (s.stackLimit.depth ≠ some s.stack.length → ∃ t, exec (.call nnn) s = .next t ∧
      t.stack = s.pc :: s.stack ∧ t.pc.toNat = (nnn.toNat + 65536 - 2) % 65536 ∧
      (t.pc + 2).toNat = nnn.toNat ∧ KeepsAllBut [.pc, .stack] s t) ∧
    (s.stackLimit.depth = some s.stack.length → exec (.call nnn) s =
      .next (s.haltedBy (.stackOverflow (opNNN 0x2000 nnn))))

/-- 00_scope.md R7, 42_control_flow.md R162: STACK_LIMIT is `unbounded` or at least 1, so the first
Call always has room. -/
def Obligations.FirstCallAlwaysHasRoom : Prop :=
  ∀ (nnn : Addr12) (s : State), s.stack = [] → ∃ t, exec (.call nnn) s = .next t ∧
    t.stack = [s.pc] ∧ t.status = s.status ∧ (t.pc + 2).toNat = nnn.toNat

/-- 42_control_flow.md R160. -/
def Obligations.ReturnPopsIntoPc : Prop :=
  decode 0x00EE = .ret ∧ ∀ s : State,
    (∀ e rest, s.stack = e :: rest → ∃ t, exec .ret s = .next t ∧
      t.pc = e ∧ t.stack = rest ∧ KeepsAllBut [.pc, .stack] s t) ∧
    (s.stack = [] → exec .ret s = .next (s.haltedBy (.emptyStack 0x00EE)))

/-- 42_control_flow.md R160, R162, 90_conflicts.md C2: whatever the subroutine leaves in pc, a
Return after a Call gives the address after the Call and the stack from before it. -/
def Obligations.ReturnResumesAfterTheCall : Prop :=
  ∀ (nnn : Addr12) (s t u : State) (p : Word), s.stackLimit.depth ≠ some s.stack.length →
    exec (.call nnn) s = .next t → exec .ret { t with pc := p } = .next u →
    u.pc + 2 = s.pc + 2 ∧ u.stack = s.stack ∧ u.status = s.status

/-- 42_control_flow.md R163, R164, 40_execution_cycle.md R136. -/
def Obligations.SkipsOnAnImmediate : Prop :=
  ∀ (x : Reg) (kk : Byte) (s : State),
    decode (opXKK 0x3000 x kk) = .skipEq x kk ∧ decode (opXKK 0x4000 x kk) = .skipNe x kk ∧
    (∃ t, exec (.skipEq x kk) s = .next t ∧
      t.pc = (if s.getV x = kk then s.pc + 2 else s.pc) ∧ KeepsAllBut [.pc] s t) ∧
    (∃ t, exec (.skipNe x kk) s = .next t ∧
      t.pc = (if s.getV x = kk then s.pc else s.pc + 2) ∧ KeepsAllBut [.pc] s t)

/-- 42_control_flow.md R165, R166. -/
def Obligations.SkipsOnTwoRegisters : Prop :=
  ∀ (x y : Reg) (s : State),
    decode (opXY 0x5000 x y) = .skipEqReg x y ∧ decode (opXY 0x9000 x y) = .skipNeReg x y ∧
    (∃ t, exec (.skipEqReg x y) s = .next t ∧
      t.pc = (if s.getV x = s.getV y then s.pc + 2 else s.pc) ∧ KeepsAllBut [.pc] s t) ∧
    (∃ t, exec (.skipNeReg x y) s = .next t ∧
      t.pc = (if s.getV x = s.getV y then s.pc else s.pc + 2) ∧ KeepsAllBut [.pc] s t)

/-- 42_control_flow.md R167. -/
def Obligations.JumpAddAddsV0 : Prop :=
  ∀ (nnn : Addr12) (s : State), decode (opNNN 0xB000 nnn) = .jumpAdd nnn ∧
    ∃ t, exec (.jumpAdd nnn) s = .next t ∧
      t.pc.toNat = (nnn.toNat + (s.getV 0).toNat + 65536 - 2) % 65536 ∧
      (t.pc + 2).toNat = nnn.toNat + (s.getV 0).toNat ∧ KeepsAllBut [.pc] s t

/-! ### Registers and ALU -/

/-- 43_alu.md R171, R172. -/
def Obligations.ImmediatesLoadAndAdd : Prop :=
  ∀ (x : Reg) (kk : Byte) (s : State),
    decode (opXKK 0x6000 x kk) = .loadImm x kk ∧ decode (opXKK 0x7000 x kk) = .addImm x kk ∧
    (∃ t, exec (.loadImm x kk) s = .next t ∧ t.getV x = kk ∧
      RegsKeptBut [x] s t ∧ KeepsAllBut [.regs] s t) ∧
    (∃ t, exec (.addImm x kk) s = .next t ∧
      (t.getV x).toNat = ((s.getV x).toNat + kk.toNat) % 256 ∧
      RegsKeptBut [x] s t ∧ KeepsAllBut [.regs] s t)

/-- 43_alu.md R173-R176. -/
def Obligations.MoveAndLogicWriteOneRegister : Prop :=
  ∀ (x y : Reg) (s : State),
    (decode (opXY 0x8000 x y) = .move x y ∧ ∃ t, exec (.move x y) s = .next t ∧
      t.getV x = s.getV y ∧ RegsKeptBut [x] s t ∧ KeepsAllBut [.regs] s t) ∧
    (decode (opXY 0x8001 x y) = .or x y ∧ ∃ t, exec (.or x y) s = .next t ∧
      t.getV x = s.getV x ||| s.getV y ∧ RegsKeptBut [x] s t ∧ KeepsAllBut [.regs] s t) ∧
    (decode (opXY 0x8002 x y) = .and x y ∧ ∃ t, exec (.and x y) s = .next t ∧
      t.getV x = s.getV x &&& s.getV y ∧ RegsKeptBut [x] s t ∧ KeepsAllBut [.regs] s t) ∧
    (decode (opXY 0x8003 x y) = .xor x y ∧ ∃ t, exec (.xor x y) s = .next t ∧
      t.getV x = s.getV x ^^^ s.getV y ∧ RegsKeptBut [x] s t ∧ KeepsAllBut [.regs] s t)

/-- 43_alu.md R177: VF gets the sum, not a carry. -/
def Obligations.AddWritesTheSumTwice : Prop :=
  ∀ (x y : Reg) (s : State), decode (opXY 0x8004 x y) = .add x y ∧
    ∃ t, exec (.add x y) s = .next t ∧
      (t.getV x).toNat = ((s.getV x).toNat + (s.getV y).toNat) % 256 ∧
      (t.getV 15).toNat = ((s.getV x).toNat + (s.getV y).toNat) % 256 ∧
      RegsKeptBut [x, 15] s t ∧ KeepsAllBut [.regs] s t

/-- 43_alu.md R178: its table of cases, under every FLAG_ALIAS. -/
def Obligations.SubWritesFlagAndDifference : Prop :=
  ∀ (x y : Reg) (s : State), decode (opXY 0x8005 x y) = .sub x y ∧
    ∃ t, exec (.sub x y) s = .next t ∧ RegsKeptBut [x, 15] s t ∧ KeepsAllBut [.regs] s t ∧
      let a := s.getV x
      let b := s.getV y
      (x ≠ 15 → y ≠ 15 → t.getV 15 = gtFlag a b ∧ t.getV x = subMod a b) ∧
      (x = 15 → y ≠ 15 → t.getV 15 =
        match s.flagAlias with
        | .sequential => subMod (gtFlag a b) b
        | .snapshotListed => subMod a b
        | .flagLast => gtFlag a b) ∧
      (x ≠ 15 → y = 15 → t.getV 15 = gtFlag a b ∧ t.getV x =
        match s.flagAlias with
        | .sequential => subMod a (gtFlag a b)
        | .snapshotListed => subMod a b
        | .flagLast => subMod a b) ∧
      (x = 15 → y = 15 → t.getV 15 = 0) ∧
      (x = y → x ≠ 15 → t.getV 15 = 0 ∧ t.getV x = 0)

/-- 43_alu.md R179: y has no effect. -/
def Obligations.ShrWritesBitZeroAndHalf : Prop :=
  ∀ (x y : Reg) (s : State), decode (opXY 0x8006 x y) = .shr x y ∧
    ∃ t, exec (.shr x y) s = .next t ∧ RegsKeptBut [x, 15] s t ∧ KeepsAllBut [.regs] s t ∧
      (x ≠ 15 → t.getV 15 = bitZero (s.getV x) ∧ t.getV x = halved (s.getV x)) ∧
      (x = 15 → t.getV 15 =
        match s.flagAlias with
        | .sequential => 0
        | .snapshotListed => halved (s.getV 15)
        | .flagLast => bitZero (s.getV 15))

/-- 43_alu.md R180: its table of cases, under every FLAG_ALIAS. -/
def Obligations.SubnWritesFlagAndDifference : Prop :=
  ∀ (x y : Reg) (s : State), decode (opXY 0x8007 x y) = .subn x y ∧
    ∃ t, exec (.subn x y) s = .next t ∧ RegsKeptBut [x, 15] s t ∧ KeepsAllBut [.regs] s t ∧
      let a := s.getV x
      let b := s.getV y
      (x ≠ 15 → y ≠ 15 → t.getV 15 = gtFlag b a ∧ t.getV x = subMod b a) ∧
      (x = 15 → y ≠ 15 → t.getV 15 =
        match s.flagAlias with
        | .sequential => subMod b (gtFlag b a)
        | .snapshotListed => subMod b a
        | .flagLast => gtFlag b a) ∧
      (x ≠ 15 → y = 15 → t.getV 15 = gtFlag b a ∧ t.getV x =
        match s.flagAlias with
        | .sequential => subMod (gtFlag b a) a
        | .snapshotListed => subMod b a
        | .flagLast => subMod b a) ∧
      (x = 15 → y = 15 → t.getV 15 = 0) ∧
      (x = y → x ≠ 15 → t.getV 15 = 0 ∧ t.getV x = 0)

/-- 43_alu.md R181: the flag is the raw bit 7; y has no effect. -/
def Obligations.ShlWritesBitSevenAndDouble : Prop :=
  ∀ (x y : Reg) (s : State), decode (opXY 0x800E x y) = .shl x y ∧
    ∃ t, exec (.shl x y) s = .next t ∧ RegsKeptBut [x, 15] s t ∧ KeepsAllBut [.regs] s t ∧
      (x ≠ 15 → t.getV 15 = bitSeven (s.getV x) ∧ t.getV x = doubled (s.getV x)) ∧
      (x = 15 → t.getV 15 =
        match s.flagAlias with
        | .sequential => 0
        | .snapshotListed => doubled (s.getV 15)
        | .flagLast => bitSeven (s.getV 15))

/-- 43_alu.md R170: where neither field names VF, every FLAG_ALIAS gives the same result. -/
def Obligations.FlagAliasMattersOnlyForVF : Prop :=
  ∀ (x y : Reg) (i : Instr) (s t : State) (m : FlagAlias),
    i ∈ [Instr.sub x y, .shr x y, .subn x y, .shl x y] → x ≠ 15 → y ≠ 15 →
    exec i s = .next t → exec i { s with flagAlias := m } = .next { t with flagAlias := m }

/-- 43_alu.md R182: exactly one request, whatever kk; its answer r is the next the host gives and
otherwise any byte (R312 makes it an input; the list of answers is log entry 8's form of it). -/
def Obligations.RandMasksOneRandomByte : Prop :=
  ∀ (x : Reg) (kk : Byte) (s : State), decode (opXKK 0xC000 x kk) = .rand x kk ∧
    ∃ t r, exec (.rand x kk) s = .next t ∧ t.getV x = r &&& kk ∧
      t.events = s.events ++ [.randomRequest r] ∧
      (∀ r₀ rest, s.randomBytes = r₀ :: rest → r = r₀ ∧ t.randomBytes = rest) ∧
      RegsKeptBut [x] s t ∧ KeepsAllBut [.regs, .randomBytes, .events, .freeCount] s t

/-! ### Index register and memory -/

/-- 44_index_memory.md R200, R201. -/
def Obligations.IndexLoadsAndAdds : Prop :=
  (∀ (nnn : Addr12) (s : State), decode (opNNN 0xA000 nnn) = .loadI nnn ∧
    ∃ t, exec (.loadI nnn) s = .next t ∧ t.iReg.toNat = nnn.toNat ∧ KeepsAllBut [.index] s t) ∧
  (∀ (x : Reg) (s : State), decode (opX 0xF01E x) = .addI x ∧
    ∃ t, exec (.addI x) s = .next t ∧
      t.iReg.toNat = (s.iReg.toNat + (s.getV x).toNat) % 65536 ∧ KeepsAllBut [.index] s t)

/-- 44_index_memory.md R202. -/
def Obligations.SpriteDigitPointsAtItsGlyph : Prop :=
  ∀ (x : Reg) (s : State), decode (opX 0xF029 x) = .spriteDigit x ∧
    ((s.getV x).toNat ≤ 9 → ∃ t, exec (.spriteDigit x) s = .next t ∧
      t.iReg.toNat = 5 * (s.getV x).toNat ∧ KeepsAllBut [.index] s t) ∧
    ((s.getV x).toNat > 9 → exec (.spriteDigit x) s =
      .next (s.haltedBy (.spriteDigitOutOfRange (opX 0xF029 x) (s.getV x))))

/-- 44_index_memory.md R203: three digits at I, I + 1, I + 2, in a memory in canonical form. -/
def Obligations.StoreBCDWritesThreeDigits : Prop :=
  ∀ (x : Reg) (s : State), s.mem.wf = true → decode (opX 0xF033 x) = .storeBCD x ∧
    (s.iReg.toNat + 2 ≤ 0xFFF → ∃ t, exec (.storeBCD x) s = .next t ∧
      (t.mem.read (s.addressOf 0)).toNat = (s.getV x).toNat / 100 ∧
      (t.mem.read (s.addressOf 1)).toNat = (s.getV x).toNat / 10 % 10 ∧
      (t.mem.read (s.addressOf 2)).toNat = (s.getV x).toNat % 10 ∧
      MemoryKeptOutside (s.addressOf 0) 3 s t ∧ KeepsAllBut [.memory] s t) ∧
    (s.iReg.toNat + 2 > 0xFFF → exec (.storeBCD x) s =
      .next (s.haltedBy (.memoryOutOfRange (opX 0xF033 x) (max s.iReg.toNat 0x1000))))

/-- 44_index_memory.md R204: V0..Vx at I, I + 1, ..., in a memory in canonical form. -/
def Obligations.StoreRegistersWritesV0ToVx : Prop :=
  ∀ (x : Reg) (s : State), s.mem.wf = true → decode (opX 0xF055 x) = .storeRegisters x ∧
    (s.iReg.toNat + x.val ≤ 0xFFF → ∃ t, exec (.storeRegisters x) s = .next t ∧
      (∀ r : Reg, r ≤ x → t.mem.read (s.addressOf r.val) = s.getV r) ∧
      MemoryKeptOutside (s.addressOf 0) (x.val + 1) s t ∧ KeepsAllBut [.memory] s t) ∧
    (s.iReg.toNat + x.val > 0xFFF → exec (.storeRegisters x) s =
      .next (s.haltedBy (.memoryOutOfRange (opX 0xF055 x) (max s.iReg.toNat 0x1000))))

/-- 44_index_memory.md R205: V0..Vx from I, I + 1, .... -/
def Obligations.ReadRegistersLoadsV0ToVx : Prop :=
  ∀ (x : Reg) (s : State), decode (opX 0xF065 x) = .readRegisters x ∧
    (s.iReg.toNat + x.val ≤ 0xFFF → ∃ t, exec (.readRegisters x) s = .next t ∧
      (∀ r : Reg, t.getV r = if r ≤ x then s.mem.read (s.addressOf r.val) else s.getV r) ∧
      KeepsAllBut [.regs] s t) ∧
    (s.iReg.toNat + x.val > 0xFFF → exec (.readRegisters x) s =
      .next (s.haltedBy (.memoryOutOfRange (opX 0xF065 x) (max s.iReg.toNat 0x1000))))

/-! ### Keypad and timers -/

/-- 45_keypad_timers.md R220: the table, a permutation of 0-15, and nothing for a value above 15. -/
def Obligations.RemapIsThePermutation : Prop :=
  ((List.range 16).map fun v => remap (BitVec.ofNat 8 v)) =
    [some 13, some 0, some 1, some 2, some 4, some 5, some 6, some 8,
     some 9, some 10, some 12, some 14, some 3, some 7, some 11, some 15] ∧
  (∀ b : Byte, b.toNat > 15 → remap b = none) ∧
  (∀ k : Fin 16, ∃ b : Byte, remap b = some k ∧ ∀ c : Byte, remap c = some k → c = b)

/-- 45_keypad_timers.md R221, R222: one query of the remapped key, its answer the next the host
gives and otherwise free (R311 makes it an input; the list of answers is log entry 7's form of it). -/
def Obligations.KeySkipsQueryOnce : Prop :=
  ∀ (x : Reg) (s : State),
    decode (opX 0xE09E x) = .skipPressed x ∧ decode (opX 0xE0A1 x) = .skipNotPressed x ∧
    (∀ k, remap (s.getV x) = some k →
      (∃ t pressed, exec (.skipPressed x) s = .next t ∧
        t.events = s.events ++ [.keyQuery k pressed] ∧
        t.pc = (if pressed then s.pc + 2 else s.pc) ∧
        (∀ a rest, s.keyAnswers = a :: rest → pressed = a ∧ t.keyAnswers = rest) ∧
        KeepsAllBut [.pc, .keyAnswers, .events, .freeCount] s t) ∧
      (∃ t pressed, exec (.skipNotPressed x) s = .next t ∧
        t.events = s.events ++ [.keyQuery k pressed] ∧
        t.pc = (if pressed then s.pc else s.pc + 2) ∧
        (∀ a rest, s.keyAnswers = a :: rest → pressed = a ∧ t.keyAnswers = rest) ∧
        KeepsAllBut [.pc, .keyAnswers, .events, .freeCount] s t)) ∧
    ((s.getV x).toNat > 15 →
      exec (.skipPressed x) s = .next (s.haltedBy (.keyIndexOutOfRange (opX 0xE09E x) (s.getV x))) ∧
      exec (.skipNotPressed x) s = .next (s.haltedBy (.keyIndexOutOfRange (opX 0xE0A1 x) (s.getV x))))

/-- 45_keypad_timers.md R224: one query; the pc is rewound while the key is not pressed, and no
register is written (the list of answers is log entry 7's form of R311's input). -/
def Obligations.WaitKeyRewindsWhileReleased : Prop :=
  ∀ (x : Reg) (s : State), decode (opX 0xF00A x) = .waitKey x ∧
    (∀ k, remap (s.getV x) = some k → ∃ t pressed, exec (.waitKey x) s = .next t ∧
      t.events = s.events ++ [.keyQuery k pressed] ∧
      (pressed = true → t.pc = s.pc) ∧ (pressed = false → t.pc = s.pc - 2 ∧ t.pc + 2 = s.pc) ∧
      (∀ a rest, s.keyAnswers = a :: rest → pressed = a ∧ t.keyAnswers = rest) ∧
      KeepsAllBut [.pc, .keyAnswers, .events, .freeCount] s t) ∧
    ((s.getV x).toNat > 15 → exec (.waitKey x) s = .next (s.haltedBy (.keyIndexOutOfRange (opX 0xF00A x) (s.getV x))))

/-- 45_keypad_timers.md R224, 60_exceptions.md R317: a step of a WaitKey whose key is not pressed
ends where it began, before the same opcode. The list `keyAnswers` is log entry 7's form of R311's
input, and `calls` and `awaitingImage` are the model's bookkeeping (log entries 10 and 11). -/
def Obligations.WaitKeyRepeatsItself : Prop :=
  ∀ (s : State) (x : Reg) (k : Fin 16) (rest : List Bool),
    s.status = .running → s.nextCall = .step → s.pc.toNat + 1 ≤ 0xFFF →
    decode (fetchWord s) = .waitKey x → remap (s.getV x) = some k →
    s.keyAnswers = false :: rest →
    ∃ t, step s = .next t ∧ t.pc = s.pc ∧ fetchWord t = fetchWord s ∧ t.keyAnswers = rest ∧
      t.events = s.events ++ [.keyQuery k false] ∧
      KeepsAllBut [.keyAnswers, .events, .calls, .awaitingImage] s t

/-- 45_keypad_timers.md R223, R225, R226. -/
def Obligations.TimersReadAndSet : Prop :=
  ∀ (x : Reg) (s : State),
    (decode (opX 0xF007 x) = .readDelay x ∧ ∃ t, exec (.readDelay x) s = .next t ∧
      t.getV x = s.dt ∧ RegsKeptBut [x] s t ∧ KeepsAllBut [.regs] s t) ∧
    (decode (opX 0xF015 x) = .setDelay x ∧ ∃ t, exec (.setDelay x) s = .next t ∧
      t.dt = s.getV x ∧ KeepsAllBut [.delay] s t) ∧
    (decode (opX 0xF018 x) = .setSound x ∧ ∃ t, exec (.setSound x) s = .next t ∧
      t.st = s.getV x ∧ KeepsAllBut [.sound] s t)

/-! ### Display -/

/-- 41_display.md R150. -/
def Obligations.PixelWriteTogglesOrClears : Prop :=
  ∀ (px py : Nat) (forceClear : Bool) (s : State),
    (px ≥ 64 ∨ py ≥ 32 → pixelWrite px py forceClear s = s) ∧
    (∀ (x : Fin 64) (y : Fin 32), x.val = px → y.val = py →
      let t := pixelWrite px py forceClear s
      t.pixel x y = (if forceClear then false else !s.pixel x y) ∧
      (∀ x' y', x' ≠ x ∨ y' ≠ y → t.pixel x' y' = s.pixel x' y') ∧
      t.events = s.events ++ [.notify x y (t.pixel x y)] ∧
      KeepsAllBut [.screen, .events] s t)

/-- 41_display.md R151: every cell is cleared and notified once, in an order of all 2048 cells that
nothing fixes; the effect is that of a forced PixelWrite on each cell in that order. -/
def Obligations.ClearScreenClearsEveryCell : Prop :=
  decode 0x00E0 = .clearScreen ∧
  ∀ s : State, ∃ (t : State) (order : List (Fin 64 × Fin 32)),
    exec .clearScreen s = .next t ∧
    order.Nodup ∧ order.length = 2048 ∧ (∀ c, c ∈ order) ∧
    t.events = s.events ++ order.map (fun c => .notify c.1 c.2 false) ∧
    (∀ x y, t.pixel x y = false) ∧
    { t with freeCount := s.freeCount } =
      order.foldl (fun u c => pixelWrite c.1.val c.2.val true u) s ∧
    KeepsAllBut [.screen, .events, .freeCount] s t

/-- 41_display.md R152: where every row it reads lies in memory, a Draw toggles exactly the cells
under the sprite's 1 bits, notifies each of them in row order from the MSB with its new value, and
changes nothing else; otherwise it is fatal at the lowest bad address before any pixel changes. -/
def Obligations.DrawTogglesTheSprite : Prop :=
  ∀ (x y n : Fin 16) (s : State), decode (opXYN 0xD000 x y n) = .draw x y n ∧
    let px := (s.getV x).toNat % 64
    let py := (s.getV y).toNat % 32
    ((∀ row, row < n.val → py + row ≤ 32 → s.addressOf row ≤ 0xFFF) →
      ∃ t, exec (.draw x y n) s = .next t ∧
        (∀ (cx : Fin 64) (cy : Fin 32), t.pixel cx cy =
          if px ≤ cx.val ∧ cx.val < px + 8 ∧ py ≤ cy.val ∧ cy.val < py + n.val ∧
              (s.mem.read (s.addressOf (cy.val - py))).getLsbD (7 - (cx.val - px)) = true
          then !s.pixel cx cy else s.pixel cx cy) ∧
        t.events = s.events ++
          (spriteCells px py (min n.val (33 - py)) fun row => s.mem.read (s.addressOf row)).map
            (fun c => .notify c.1 c.2 (!s.pixel c.1 c.2)) ∧
        KeepsAllBut [.screen, .events] s t) ∧
    (∀ row, row < n.val → py + row ≤ 32 → s.addressOf row > 0xFFF →
      (∀ r, r < row → s.addressOf r ≤ 0xFFF) →
      exec (.draw x y n) s = .next (s.haltedBy (.memoryOutOfRange (opXYN 0xD000 x y n) (s.addressOf row))))

/-- 41_display.md R152: "drawing the same sprite twice at the same place restores the framebuffer". -/
def Obligations.DrawTwiceRestores : Prop :=
  ∀ (x y n : Fin 16) (s t u : State), exec (.draw x y n) s = .next t →
    exec (.draw x y n) t = .next u → ∀ cx cy, u.pixel cx cy = s.pixel cx cy

/-! ### The timer, construction and the image load -/

/-- 60_exceptions.md R307: natural-number subtraction saturates at zero. `calls` and `awaitingImage`
are the model's bookkeeping (log entries 10 and 11). -/
def Obligations.TickCountsBothTimersDown : Prop :=
  ∀ s : State, s.status = .running → s.nextCall = .tick → ∃ t, step s = .next t ∧
    t.dt.toNat = s.dt.toNat - 1 ∧ t.st.toNat = s.st.toNat - 1 ∧
    KeepsAllBut [.delay, .sound, .calls, .awaitingImage] s t

/-- 60_exceptions.md R308, 10_state.md R25, R26: a step changes a timer only by the instruction that
sets it. The host's next call is the model's list (log entry 10). -/
def Obligations.StepsNeverCountTimersDown : Prop :=
  ∀ s t : State, s.nextCall = .step → step s = .next t →
    (t.dt = s.dt ∨ ∃ x, decode (fetchWord s) = .setDelay x ∧ t.dt = s.getV x) ∧
    (t.st = s.st ∨ ∃ x, decode (fetchWord s) = .setSound x ∧ t.st = s.getV x)

/-- State.reset is construction at the values the model gives the OPEN parameters (log entries 3-6:
the model's choices), and leaves the values of 10_state.md R32. Of memory, only glyph 0 is the spec's
and is stated. -/
def Obligations.ResetLeavesTheSpecsValues : Prop :=
  State.construct defaultParams = State.reset ∧
  (∀ r, State.reset.getV r = 0) ∧ State.reset.iReg = 0 ∧ State.reset.pc = 0x0200 ∧
  State.reset.stack = [] ∧ State.reset.dt = 0 ∧ State.reset.st = 0 ∧
  (∀ x y, State.reset.pixel x y = false) ∧ State.reset.status = .running ∧
  State.reset.mem.read 0 = 0xF0 ∧ State.reset.mem.read 1 = 0x90 ∧ State.reset.mem.read 2 = 0x90 ∧
  State.reset.mem.read 3 = 0x90 ∧ State.reset.mem.read 4 = 0xF0

/-- 70_reset_and_hazards.md R340, 10_state.md R32, 20_memory.md R68, R69: construction for every
value of the four OPEN parameters. -/
def Obligations.ConstructionHoldsItsParameters : Prop :=
  ∀ p : LaunchParams,
    (∀ r, (State.construct p).getV r = 0) ∧ (State.construct p).iReg = 0 ∧
    (State.construct p).pc = 0x0200 ∧ (State.construct p).stack = [] ∧
    (State.construct p).dt = 0 ∧ (State.construct p).st = 0 ∧
    (∀ x y, (State.construct p).pixel x y = false) ∧ (State.construct p).status = .running ∧
    (State.construct p).events = [] ∧
    (State.construct p).flagAlias = p.flagAlias ∧ (State.construct p).stackLimit = p.stackLimit ∧
    (∀ a, a < 5 → (State.construct p).mem.read a = if a = 0 ∨ a = 4 then 0xF0 else 0x90) ∧
    (∀ a, 5 ≤ a → a < 80 → (State.construct p).mem.read a = p.font a) ∧
    (∀ a, 80 ≤ a → a ≤ 0xFFF → (State.construct p).mem.read a = p.initMem a)

/-- 70_reset_and_hazards.md R341: the image is placed verbatim from 0x200, cut at 3584 bytes, as the
first transaction; a later load is refused. `awaitingImage` is true until the first transaction (log
entry 11); it and `calls` (log entry 10) are the model's bookkeeping. -/
def Obligations.ImageLoadPlacesTheImage : Prop :=
  ∀ (s : State) (image : List Byte), s.mem.wf = true → s.status = .running →
    s.nextCall = .load image →
    (s.awaitingImage = true → ∃ t, step s = .next t ∧
      (∀ i, i < min image.length 3584 → t.mem.read (0x200 + i) = image.getD i 0) ∧
      MemoryKeptOutside 0x200 (min image.length 3584) s t ∧
      KeepsAllBut [.memory, .calls, .awaitingImage] s t) ∧
    (s.awaitingImage = false → step s = .refused .lateImageLoad)

/-- The model's form of 60_exceptions.md R314, a sequence of calls in the host's order (the list
`calls`, log entry 10), and of 70_reset_and_hazards.md R341, one image load before any other
transaction (the flag `awaitingImage`, log entry 11): both are its bookkeeping, not the spec's words. -/
def Obligations.TransactionsTakeCallsInOrder : Prop :=
  ∀ s t : State, step s = .next t → t.calls = s.calls.tail ∧ t.awaitingImage = false

/-! ### The whole machine -/

/-- 70_reset_and_hazards.md R340: every construction, and reset, meet both invariants. -/
def Obligations.InvariantsHoldAfterConstruction : Prop :=
  (∀ p : LaunchParams, Inv (State.construct p) ∧ SinkMirrors (State.construct p)) ∧
  Inv State.reset ∧ SinkMirrors State.reset

/-- 20_memory.md R60, 10_state.md R24, 42_control_flow.md R160, 60_exceptions.md R304: every
transaction keeps memory canonical, the stack within its limit and made of fetchable addresses, and
a fatal status in agreement with the state it left. -/
def Obligations.EveryTransactionKeepsTheInvariant : Prop :=
  ∀ s t : State, Inv s → step s = .next t → Inv t

/-- 10_state.md R27, 60_exceptions.md R310: a sink that applies the notifications in order shows the
framebuffer, after every transaction. -/
def Obligations.EveryTransactionKeepsTheSinkInStep : Prop :=
  ∀ s t : State, SinkMirrors s → step s = .next t → SinkMirrors t

/-- 10_state.md R21-R27, R29, 20_memory.md R66: what each instruction leaves unchanged. -/
def Obligations.EachInstructionWritesOnlyItsParts : Prop :=
  ∀ (i : Instr) (s t : State), s.status = .running → exec i s = .next t → t.status = .running →
    KeepsAllBut (partsWritten i) s t ∧ ∀ r, regsWritten i r = false → t.getV r = s.getV r

/-- 40_execution_cycle.md R140: the capability calls of each instruction. -/
def Obligations.EachInstructionMakesItsCalls : Prop :=
  ∀ (i : Instr) (s t : State), s.status = .running → exec i s = .next t → t.status = .running →
    ∃ new, t.events = s.events ++ new ∧ eventsAllowed i new

/-- 10_state.md R26: no instruction reads the sound timer. -/
def Obligations.NoInstructionReadsTheSoundTimer : Prop :=
  ∀ (i : Instr) (s t : State) (b : Byte), (∀ x, i ≠ .setSound x) → exec i s = .next t →
    exec i { s with st := b } = .next { t with st := b }
end

