-- ==== Sys2Proof/Laws/Encoding.lean ====
section
/-! SUPPORT. What the decoder's fields and the encoder's patterns are as numbers. -/

namespace Sys2Proof

theorem fieldMajor_eq (raw : Word) : fieldMajor raw = raw.toNat / 4096 := by
  have := raw.isLt
  simp [fieldMajor, BitVec.extractLsb'_toNat, Nat.shiftRight_eq_div_pow]
  omega

theorem fieldX_val (raw : Word) : (fieldX raw).val = raw.toNat / 256 % 16 := by
  simp [fieldX, BitVec.extractLsb'_toNat, Nat.shiftRight_eq_div_pow]

theorem fieldY_val (raw : Word) : (fieldY raw).val = raw.toNat / 16 % 16 := by
  simp [fieldY, BitVec.extractLsb'_toNat, Nat.shiftRight_eq_div_pow]

theorem fieldN_val (raw : Word) : (fieldN raw).val = raw.toNat % 16 := by
  simp [fieldN, BitVec.extractLsb'_toNat]

theorem fieldKK_toNat (raw : Word) : (fieldKK raw).toNat = raw.toNat % 256 := by
  simp [fieldKK, BitVec.extractLsb'_toNat]

theorem fieldNNN_toNat (raw : Word) : (fieldNNN raw).toNat = raw.toNat % 4096 := by
  simp [fieldNNN, BitVec.extractLsb'_toNat]

theorem append_toNat {w v : Nat} (a : BitVec w) (b : BitVec v) :
    (a ++ b).toNat = a.toNat * 2 ^ v + b.toNat := by
  rw [BitVec.toNat_append, ← Nat.shiftLeft_add_eq_or_of_lt b.isLt, Nat.shiftLeft_eq]

theorem packNNN_toNat (major : BitVec 4) (nnn : Addr12) :
    (packNNN major nnn).toNat = 4096 * major.toNat + nnn.toNat := by
  simp only [packNNN, append_toNat]; omega

theorem packXKK_toNat (major : BitVec 4) (x : Reg) (kk : Byte) :
    (packXKK major x kk).toNat = 4096 * major.toNat + 256 * x.val + kk.toNat := by
  have := x.isLt
  simp only [packXKK, append_toNat, BitVec.toNat_ofNat]; omega

theorem packXYN_toNat (major : BitVec 4) (x y n : Fin 16) :
    (packXYN major x y n).toNat = 4096 * major.toNat + 256 * x.val + 16 * y.val + n.val := by
  have := x.isLt
  have := y.isLt
  have := n.isLt
  simp only [packXYN, append_toNat, BitVec.toNat_ofNat]; omega

theorem fieldX_eq {raw : Word} {x : Reg} (h : raw.toNat / 256 % 16 = x.val) : fieldX raw = x :=
  Fin.ext (by rw [fieldX_val, h])

theorem fieldY_eq {raw : Word} {y : Reg} (h : raw.toNat / 16 % 16 = y.val) : fieldY raw = y :=
  Fin.ext (by rw [fieldY_val, h])

theorem fieldN_eq {raw : Word} {n : Fin 16} (h : raw.toNat % 16 = n.val) : fieldN raw = n :=
  Fin.ext (by rw [fieldN_val, h])

theorem fieldKK_eq {raw : Word} {kk : Byte} (h : raw.toNat % 256 = kk.toNat) : fieldKK raw = kk :=
  BitVec.eq_of_toNat_eq (by rw [fieldKK_toNat, h])

theorem fieldNNN_eq {raw : Word} {nnn : Addr12} (h : raw.toNat % 4096 = nnn.toNat) :
    fieldNNN raw = nnn :=
  BitVec.eq_of_toNat_eq (by rw [fieldNNN_toNat, h])

/-! ### One lemma per row of the opcode map -/

theorem majorOf {raw : Word} {m : Nat} (h : raw.toNat / 4096 = m) : fieldMajor raw = m := by
  rw [fieldMajor_eq, h]

theorem lowOf {raw : Word} {m : Nat} (h : raw.toNat % 256 = m) : (fieldKK raw).toNat = m := by
  rw [fieldKK_toNat, h]

theorem nibbleOf {raw : Word} {m : Nat} (h : raw.toNat % 16 = m) : (fieldN raw).val = m := by
  rw [fieldN_val, h]

theorem decode_jump {raw : Word} {nnn : Addr12} (h : raw.toNat = 0x1000 + nnn.toNat) :
    decode raw = .jump nnn := by
  have := nnn.isLt
  simp only [decode, majorOf (show raw.toNat / 4096 = 1 by omega)]
  rw [fieldNNN_eq (nnn := nnn) (by omega)]

theorem decode_call {raw : Word} {nnn : Addr12} (h : raw.toNat = 0x2000 + nnn.toNat) :
    decode raw = .call nnn := by
  have := nnn.isLt
  simp only [decode, majorOf (show raw.toNat / 4096 = 2 by omega)]
  rw [fieldNNN_eq (nnn := nnn) (by omega)]

theorem decode_skipEq {raw : Word} {x : Reg} {kk : Byte}
    (h : raw.toNat = 0x3000 + 256 * x.val + kk.toNat) : decode raw = .skipEq x kk := by
  have := x.isLt
  have := kk.isLt
  simp only [decode, majorOf (show raw.toNat / 4096 = 3 by omega)]
  rw [fieldX_eq (x := x) (by omega), fieldKK_eq (kk := kk) (by omega)]

theorem decode_skipNe {raw : Word} {x : Reg} {kk : Byte}
    (h : raw.toNat = 0x4000 + 256 * x.val + kk.toNat) : decode raw = .skipNe x kk := by
  have := x.isLt
  have := kk.isLt
  simp only [decode, majorOf (show raw.toNat / 4096 = 4 by omega)]
  rw [fieldX_eq (x := x) (by omega), fieldKK_eq (kk := kk) (by omega)]

theorem decode_skipEqReg {raw : Word} {x y : Reg} (h : raw.toNat = 0x5000 + 256 * x.val + 16 * y.val) :
    decode raw = .skipEqReg x y := by
  have := x.isLt
  have := y.isLt
  simp only [decode, majorOf (show raw.toNat / 4096 = 5 by omega),
    fieldN_eq (n := 0) (show raw.toNat % 16 = (0 : Fin 16).val by simp; omega), if_true]
  rw [fieldX_eq (x := x) (by omega), fieldY_eq (y := y) (by omega)]

theorem decode_loadImm {raw : Word} {x : Reg} {kk : Byte}
    (h : raw.toNat = 0x6000 + 256 * x.val + kk.toNat) : decode raw = .loadImm x kk := by
  have := x.isLt
  have := kk.isLt
  simp only [decode, majorOf (show raw.toNat / 4096 = 6 by omega)]
  rw [fieldX_eq (x := x) (by omega), fieldKK_eq (kk := kk) (by omega)]

theorem decode_addImm {raw : Word} {x : Reg} {kk : Byte}
    (h : raw.toNat = 0x7000 + 256 * x.val + kk.toNat) : decode raw = .addImm x kk := by
  have := x.isLt
  have := kk.isLt
  simp only [decode, majorOf (show raw.toNat / 4096 = 7 by omega)]
  rw [fieldX_eq (x := x) (by omega), fieldKK_eq (kk := kk) (by omega)]

theorem decode_move {raw : Word} {x y : Reg} (h : raw.toNat = 0x8000 + 256 * x.val + 16 * y.val) :
    decode raw = .move x y := by
  have := x.isLt
  have := y.isLt
  simp only [decode, majorOf (show raw.toNat / 4096 = 8 by omega), decode8,
    nibbleOf (show raw.toNat % 16 = 0 by omega)]
  rw [fieldX_eq (x := x) (by omega), fieldY_eq (y := y) (by omega)]

theorem decode_or {raw : Word} {x y : Reg} (h : raw.toNat = 0x8001 + 256 * x.val + 16 * y.val) :
    decode raw = .or x y := by
  have := x.isLt
  have := y.isLt
  simp only [decode, majorOf (show raw.toNat / 4096 = 8 by omega), decode8,
    nibbleOf (show raw.toNat % 16 = 1 by omega)]
  rw [fieldX_eq (x := x) (by omega), fieldY_eq (y := y) (by omega)]

theorem decode_and {raw : Word} {x y : Reg} (h : raw.toNat = 0x8002 + 256 * x.val + 16 * y.val) :
    decode raw = .and x y := by
  have := x.isLt
  have := y.isLt
  simp only [decode, majorOf (show raw.toNat / 4096 = 8 by omega), decode8,
    nibbleOf (show raw.toNat % 16 = 2 by omega)]
  rw [fieldX_eq (x := x) (by omega), fieldY_eq (y := y) (by omega)]

theorem decode_xor {raw : Word} {x y : Reg} (h : raw.toNat = 0x8003 + 256 * x.val + 16 * y.val) :
    decode raw = .xor x y := by
  have := x.isLt
  have := y.isLt
  simp only [decode, majorOf (show raw.toNat / 4096 = 8 by omega), decode8,
    nibbleOf (show raw.toNat % 16 = 3 by omega)]
  rw [fieldX_eq (x := x) (by omega), fieldY_eq (y := y) (by omega)]

theorem decode_add {raw : Word} {x y : Reg} (h : raw.toNat = 0x8004 + 256 * x.val + 16 * y.val) :
    decode raw = .add x y := by
  have := x.isLt
  have := y.isLt
  simp only [decode, majorOf (show raw.toNat / 4096 = 8 by omega), decode8,
    nibbleOf (show raw.toNat % 16 = 4 by omega)]
  rw [fieldX_eq (x := x) (by omega), fieldY_eq (y := y) (by omega)]

theorem decode_sub {raw : Word} {x y : Reg} (h : raw.toNat = 0x8005 + 256 * x.val + 16 * y.val) :
    decode raw = .sub x y := by
  have := x.isLt
  have := y.isLt
  simp only [decode, majorOf (show raw.toNat / 4096 = 8 by omega), decode8,
    nibbleOf (show raw.toNat % 16 = 5 by omega)]
  rw [fieldX_eq (x := x) (by omega), fieldY_eq (y := y) (by omega)]

theorem decode_shr {raw : Word} {x y : Reg} (h : raw.toNat = 0x8006 + 256 * x.val + 16 * y.val) :
    decode raw = .shr x y := by
  have := x.isLt
  have := y.isLt
  simp only [decode, majorOf (show raw.toNat / 4096 = 8 by omega), decode8,
    nibbleOf (show raw.toNat % 16 = 6 by omega)]
  rw [fieldX_eq (x := x) (by omega), fieldY_eq (y := y) (by omega)]

theorem decode_subn {raw : Word} {x y : Reg} (h : raw.toNat = 0x8007 + 256 * x.val + 16 * y.val) :
    decode raw = .subn x y := by
  have := x.isLt
  have := y.isLt
  simp only [decode, majorOf (show raw.toNat / 4096 = 8 by omega), decode8,
    nibbleOf (show raw.toNat % 16 = 7 by omega)]
  rw [fieldX_eq (x := x) (by omega), fieldY_eq (y := y) (by omega)]

theorem decode_shl {raw : Word} {x y : Reg} (h : raw.toNat = 0x800E + 256 * x.val + 16 * y.val) :
    decode raw = .shl x y := by
  have := x.isLt
  have := y.isLt
  simp only [decode, majorOf (show raw.toNat / 4096 = 8 by omega), decode8,
    nibbleOf (show raw.toNat % 16 = 14 by omega)]
  rw [fieldX_eq (x := x) (by omega), fieldY_eq (y := y) (by omega)]

theorem decode_skipNeReg {raw : Word} {x y : Reg} (h : raw.toNat = 0x9000 + 256 * x.val + 16 * y.val) :
    decode raw = .skipNeReg x y := by
  have := x.isLt
  have := y.isLt
  simp only [decode, majorOf (show raw.toNat / 4096 = 9 by omega),
    fieldN_eq (n := 0) (show raw.toNat % 16 = (0 : Fin 16).val by simp; omega), if_true]
  rw [fieldX_eq (x := x) (by omega), fieldY_eq (y := y) (by omega)]

theorem decode_loadI {raw : Word} {nnn : Addr12} (h : raw.toNat = 0xA000 + nnn.toNat) :
    decode raw = .loadI nnn := by
  have := nnn.isLt
  simp only [decode, majorOf (show raw.toNat / 4096 = 10 by omega)]
  rw [fieldNNN_eq (nnn := nnn) (by omega)]

theorem decode_jumpAdd {raw : Word} {nnn : Addr12} (h : raw.toNat = 0xB000 + nnn.toNat) :
    decode raw = .jumpAdd nnn := by
  have := nnn.isLt
  simp only [decode, majorOf (show raw.toNat / 4096 = 11 by omega)]
  rw [fieldNNN_eq (nnn := nnn) (by omega)]

theorem decode_rand {raw : Word} {x : Reg} {kk : Byte}
    (h : raw.toNat = 0xC000 + 256 * x.val + kk.toNat) : decode raw = .rand x kk := by
  have := x.isLt
  have := kk.isLt
  simp only [decode, majorOf (show raw.toNat / 4096 = 12 by omega)]
  rw [fieldX_eq (x := x) (by omega), fieldKK_eq (kk := kk) (by omega)]

theorem decode_draw {raw : Word} {x y n : Fin 16}
    (h : raw.toNat = 0xD000 + 256 * x.val + 16 * y.val + n.val) : decode raw = .draw x y n := by
  have := x.isLt
  have := y.isLt
  have := n.isLt
  simp only [decode, majorOf (show raw.toNat / 4096 = 13 by omega)]
  rw [fieldX_eq (x := x) (by omega), fieldY_eq (y := y) (by omega), fieldN_eq (n := n) (by omega)]

theorem decode_skipPressed {raw : Word} {x : Reg} (h : raw.toNat = 0xE09E + 256 * x.val) :
    decode raw = .skipPressed x := by
  have := x.isLt
  simp only [decode, majorOf (show raw.toNat / 4096 = 14 by omega), decodeE,
    lowOf (show raw.toNat % 256 = 158 by omega)]
  rw [fieldX_eq (x := x) (by omega)]

theorem decode_skipNotPressed {raw : Word} {x : Reg} (h : raw.toNat = 0xE0A1 + 256 * x.val) :
    decode raw = .skipNotPressed x := by
  have := x.isLt
  simp only [decode, majorOf (show raw.toNat / 4096 = 14 by omega), decodeE,
    lowOf (show raw.toNat % 256 = 161 by omega)]
  rw [fieldX_eq (x := x) (by omega)]

theorem decode_readDelay {raw : Word} {x : Reg} (h : raw.toNat = 0xF007 + 256 * x.val) :
    decode raw = .readDelay x := by
  have := x.isLt
  simp only [decode, majorOf (show raw.toNat / 4096 = 15 by omega), decodeF,
    lowOf (show raw.toNat % 256 = 7 by omega)]
  rw [fieldX_eq (x := x) (by omega)]

theorem decode_waitKey {raw : Word} {x : Reg} (h : raw.toNat = 0xF00A + 256 * x.val) :
    decode raw = .waitKey x := by
  have := x.isLt
  simp only [decode, majorOf (show raw.toNat / 4096 = 15 by omega), decodeF,
    lowOf (show raw.toNat % 256 = 10 by omega)]
  rw [fieldX_eq (x := x) (by omega)]

theorem decode_setDelay {raw : Word} {x : Reg} (h : raw.toNat = 0xF015 + 256 * x.val) :
    decode raw = .setDelay x := by
  have := x.isLt
  simp only [decode, majorOf (show raw.toNat / 4096 = 15 by omega), decodeF,
    lowOf (show raw.toNat % 256 = 21 by omega)]
  rw [fieldX_eq (x := x) (by omega)]

theorem decode_setSound {raw : Word} {x : Reg} (h : raw.toNat = 0xF018 + 256 * x.val) :
    decode raw = .setSound x := by
  have := x.isLt
  simp only [decode, majorOf (show raw.toNat / 4096 = 15 by omega), decodeF,
    lowOf (show raw.toNat % 256 = 24 by omega)]
  rw [fieldX_eq (x := x) (by omega)]

theorem decode_addI {raw : Word} {x : Reg} (h : raw.toNat = 0xF01E + 256 * x.val) :
    decode raw = .addI x := by
  have := x.isLt
  simp only [decode, majorOf (show raw.toNat / 4096 = 15 by omega), decodeF,
    lowOf (show raw.toNat % 256 = 30 by omega)]
  rw [fieldX_eq (x := x) (by omega)]

theorem decode_spriteDigit {raw : Word} {x : Reg} (h : raw.toNat = 0xF029 + 256 * x.val) :
    decode raw = .spriteDigit x := by
  have := x.isLt
  simp only [decode, majorOf (show raw.toNat / 4096 = 15 by omega), decodeF,
    lowOf (show raw.toNat % 256 = 41 by omega)]
  rw [fieldX_eq (x := x) (by omega)]

theorem decode_storeBCD {raw : Word} {x : Reg} (h : raw.toNat = 0xF033 + 256 * x.val) :
    decode raw = .storeBCD x := by
  have := x.isLt
  simp only [decode, majorOf (show raw.toNat / 4096 = 15 by omega), decodeF,
    lowOf (show raw.toNat % 256 = 51 by omega)]
  rw [fieldX_eq (x := x) (by omega)]

theorem decode_storeRegisters {raw : Word} {x : Reg} (h : raw.toNat = 0xF055 + 256 * x.val) :
    decode raw = .storeRegisters x := by
  have := x.isLt
  simp only [decode, majorOf (show raw.toNat / 4096 = 15 by omega), decodeF,
    lowOf (show raw.toNat % 256 = 85 by omega)]
  rw [fieldX_eq (x := x) (by omega)]

theorem decode_readRegisters {raw : Word} {x : Reg} (h : raw.toNat = 0xF065 + 256 * x.val) :
    decode raw = .readRegisters x := by
  have := x.isLt
  simp only [decode, majorOf (show raw.toNat / 4096 = 15 by omega), decodeF,
    lowOf (show raw.toNat % 256 = 101 by omega)]
  rw [fieldX_eq (x := x) (by omega)]

/-! ### Masked opcodes -/

theorem and_F000 (raw : Word) : (raw &&& 0xF000#16).toNat = raw.toNat / 4096 * 4096 := by
  have h : raw &&& 0xF000#16 = (raw >>> 12) <<< 12 := by
    ext i hi
    have : i = 0 ∨ i = 1 ∨ i = 2 ∨ i = 3 ∨ i = 4 ∨ i = 5 ∨ i = 6 ∨ i = 7 ∨ i = 8 ∨ i = 9 ∨ i = 10 ∨
      i = 11 ∨ i = 12 ∨ i = 13 ∨ i = 14 ∨ i = 15 := by omega
    rcases this with h | h | h | h | h | h | h | h | h | h | h | h | h | h | h | h <;> subst h <;> simp
  have := raw.isLt
  rw [h]; simp [Nat.shiftLeft_eq, Nat.shiftRight_eq_div_pow]; omega

theorem and_mask_split (raw low : Word) (k : Nat) (hk : k ≤ 12) (hl : low.toNat = 2 ^ k - 1) :
    (raw &&& (0xF000#16 ||| low)).toNat = raw.toNat / 4096 * 4096 + raw.toNat % 2 ^ k := by
  have hsplit : raw &&& (0xF000#16 ||| low) = (raw &&& 0xF000#16) ||| (raw &&& low) := by
    ext i hi
    simp only [BitVec.getElem_and, BitVec.getElem_or, Bool.and_or_distrib_left]
  have hlow : (raw &&& low).toNat = raw.toNat % 2 ^ k := by
    rw [BitVec.toNat_and, hl, Nat.and_two_pow_sub_one_eq_mod]
  have hlt : raw.toNat % 2 ^ k < 2 ^ 12 :=
    Nat.lt_of_lt_of_le (Nat.mod_lt _ (Nat.two_pow_pos k)) (Nat.pow_le_pow_right (by decide) hk)
  have := Nat.shiftLeft_add_eq_or_of_lt hlt (raw.toNat / 4096)
  rw [Nat.shiftLeft_eq] at this
  rw [hsplit, BitVec.toNat_or, hlow, and_F000]
  exact this.symm

theorem and_F00F (raw : Word) :
    (raw &&& 0xF00F#16).toNat = raw.toNat / 4096 * 4096 + raw.toNat % 16 :=
  and_mask_split raw 0x000F#16 4 (by decide) (by decide)

theorem and_F0FF (raw : Word) :
    (raw &&& 0xF0FF#16).toNat = raw.toNat / 4096 * 4096 + raw.toNat % 256 :=
  and_mask_split raw 0x00FF#16 8 (by decide) (by decide)

namespace Machine

theorem opNNN_toNat {bits : Nat} (h : bits ≤ 0xF000) (nnn : Addr12) :
    (opNNN bits nnn).toNat = bits + nnn.toNat := by
  have := nnn.isLt
  simp only [opNNN, BitVec.toNat_ofNat]; omega

theorem opXKK_toNat {bits : Nat} (h : bits ≤ 0xF000) (x : Reg) (kk : Byte) :
    (opXKK bits x kk).toNat = bits + 256 * x.val + kk.toNat := by
  have := kk.isLt
  have := x.isLt
  simp only [opXKK, BitVec.toNat_ofNat]; omega

theorem opX_toNat {bits : Nat} (h : bits ≤ 0xF0FF) (x : Reg) :
    (opX bits x).toNat = bits + 256 * x.val := by
  have := x.isLt
  simp only [opX, BitVec.toNat_ofNat]; omega

theorem opXY_toNat {bits : Nat} (h : bits ≤ 0xF00F) (x y : Reg) :
    (opXY bits x y).toNat = bits + 256 * x.val + 16 * y.val := by
  have := x.isLt
  have := y.isLt
  simp only [opXY, BitVec.toNat_ofNat]; omega

theorem opXYN_toNat {bits : Nat} (h : bits ≤ 0xF000) (x y n : Fin 16) :
    (opXYN bits x y n).toNat = bits + 256 * x.val + 16 * y.val + n.val := by
  have := x.isLt
  have := y.isLt
  have := n.isLt
  simp only [opXYN, BitVec.toNat_ofNat]; omega

end Machine

end Sys2Proof
end

