-- ==== Sys2Proof/Laws/Memory.lean ====
section
/-! SUPPORT. Memory: a read after a write, the bytes of a block write, and that every operation keeps the canonical form. -/

namespace Sys2Proof.Machine

theorem Memory.read_cons (m : Memory) (a k : Nat) (b : Byte) :
    Memory.read ((k, b) :: m) a = if k = a then b else m.read a := rfl

/-- Below the first address of a canonical memory nothing is listed. -/
theorem Memory.read_below {m : Memory} {lo a : Nat} (h : Memory.wfFrom lo m = true) (ha : a < lo) :
    m.read a = Memory.unlisted a := by
  induction m generalizing lo with
  | nil => rfl
  | cons c rest ih =>
    obtain ⟨k, b⟩ := c
    simp only [Memory.wfFrom, Bool.and_eq_true, decide_eq_true_eq] at h
    rw [Memory.read_cons, if_neg (by omega)]
    exact ih h.2 (by omega)

theorem Memory.wfFrom_mono {m : Memory} {lo hi : Nat} (h : Memory.wfFrom hi m = true) (hl : lo ≤ hi) :
    Memory.wfFrom lo m = true := by
  cases m with
  | nil => rfl
  | cons c rest =>
    simp only [Memory.wfFrom, Bool.and_eq_true, decide_eq_true_eq] at h ⊢
    exact ⟨⟨⟨by omega, h.1.1.2⟩, h.1.2⟩, h.2⟩

theorem Memory.wfFrom_consCell {m : Memory} {a : Nat} {b : Byte} (h : Memory.wfFrom (a + 1) m = true)
    (ha : a < memSize) {lo : Nat} (hl : lo ≤ a) : Memory.wfFrom lo (Memory.cons a b m) = true := by
  unfold Memory.cons
  split
  · exact Memory.wfFrom_mono h (by omega)
  · simp only [Memory.wfFrom, Bool.and_eq_true, decide_eq_true_eq]
    exact ⟨⟨⟨hl, ha⟩, ‹_›⟩, h⟩

theorem Memory.wfFrom_write {m : Memory} {lo a : Nat} (b : Byte) (h : Memory.wfFrom lo m = true)
    (hl : lo ≤ a) (ha : a < memSize) : Memory.wfFrom lo (m.write a b) = true := by
  induction m generalizing lo with
  | nil => exact Memory.wfFrom_consCell rfl ha hl
  | cons c rest ih =>
    obtain ⟨k, e⟩ := c
    have h' := h
    simp only [Memory.wfFrom, Bool.and_eq_true, decide_eq_true_eq] at h'
    unfold Memory.write
    split
    · refine Memory.wfFrom_consCell ?_ ha hl
      simp only [Memory.wfFrom, Bool.and_eq_true, decide_eq_true_eq]
      exact ⟨⟨⟨by omega, h'.1.1.2⟩, h'.1.2⟩, h'.2⟩
    · split
      · subst a; exact Memory.wfFrom_consCell h'.2 ha hl
      · simp only [Memory.wfFrom, Bool.and_eq_true, decide_eq_true_eq]
        exact ⟨h'.1, ih h'.2 (by omega)⟩

/-- A byte store keeps the canonical form. -/
theorem Memory.wf_write {m : Memory} {a : Nat} (b : Byte) (h : m.wf = true) (ha : a < memSize) :
    (m.write a b).wf = true :=
  Memory.wfFrom_write b h (Nat.zero_le a) ha

/-- A block store inside memory keeps the canonical form. -/
theorem Memory.wf_writeBytes {m : Memory} {a : Nat} (bs : List Byte) (h : m.wf = true)
    (ha : a + bs.length ≤ memSize) : (m.writeBytes a bs).wf = true := by
  induction bs generalizing m a with
  | nil => exact h
  | cons b rest ih =>
    simp only [List.length_cons] at ha
    exact ih (Memory.wf_write b h (by omega)) (by omega)

theorem Memory.read_consCell {m : Memory} {a c : Nat} (b : Byte)
    (h : m.read a = Memory.unlisted a ∨ b ≠ Memory.unlisted a) :
    (Memory.cons a b m).read c = if a = c then b else m.read c := by
  unfold Memory.cons
  split
  · next hb =>
    split
    · next hc => subst hc; rcases h with h | h
                 · rw [h, hb]
                 · exact absurd hb h
    · rfl
  · rfl

theorem Memory.read_write_from {m : Memory} {lo a : Nat} (b : Byte) (c : Nat)
    (h : Memory.wfFrom lo m = true) : (m.write a b).read c = if a = c then b else m.read c := by
  induction m generalizing lo with
  | nil => exact Memory.read_consCell b (Or.inl rfl)
  | cons cell rest ih =>
    obtain ⟨k, e⟩ := cell
    have h' := h
    simp only [Memory.wfFrom, Bool.and_eq_true, decide_eq_true_eq] at h'
    unfold Memory.write
    split
    · refine Memory.read_consCell b (Or.inl ?_)
      rw [Memory.read_cons, if_neg (by omega)]
      exact Memory.read_below h'.2 (by omega)
    · split
      · next hk =>
        subst hk
        rw [Memory.read_consCell b (Or.inl (Memory.read_below h'.2 (Nat.lt_succ_self a)))]
        rw [Memory.read_cons]
        split <;> rfl
      · rw [Memory.read_cons, Memory.read_cons, ih h'.2]
        split
        · rw [if_neg (by omega)]
        · rfl

/-- A read after a write: the byte written, and every other address as before. -/
theorem Memory.read_write {m : Memory} {a : Nat} (b : Byte) (c : Nat) (h : m.wf = true) :
    (m.write a b).read c = if a = c then b else m.read c :=
  Memory.read_write_from b c h

/-- A read after a block write. -/
theorem Memory.read_writeBytes {m : Memory} {a : Nat} (bs : List Byte) (c : Nat) (h : m.wf = true)
    (ha : a + bs.length ≤ memSize) :
    (m.writeBytes a bs).read c =
      if a ≤ c ∧ c < a + bs.length then bs.getD (c - a) 0 else m.read c := by
  induction bs generalizing m a with
  | nil => rw [if_neg (by simp)]; rfl
  | cons b rest ih =>
    simp only [List.length_cons] at ha ⊢
    rw [Memory.writeBytes, ih (Memory.wf_write b h (by omega)) (by omega), Memory.read_write b c h]
    by_cases h1 : a = c
    · subst h1
      rw [if_neg (by omega), if_pos rfl, if_pos (by omega), Nat.sub_self]
      rfl
    · rw [if_neg h1]
      by_cases h2 : a + 1 ≤ c ∧ c < a + 1 + rest.length
      · rw [if_pos h2, if_pos (by omega), show c - a = (c - (a + 1)) + 1 by omega]
        rfl
      · rw [if_neg h2, if_neg (by omega)]

/-- The cells of `ofBytes` from one address to another. -/
def Memory.cellsOf (f : Nat → Byte) (l : List Nat) : Memory :=
  l.filterMap fun a => if f a = Memory.unlisted a then none else some (a, f a)

theorem Memory.cellsOf_cons (f : Nat → Byte) (a : Nat) (l : List Nat) :
    Memory.cellsOf f (a :: l) = Memory.cons a (f a) (Memory.cellsOf f l) := by
  unfold Memory.cons Memory.cellsOf
  rw [List.filterMap_cons]
  split <;> split <;> simp_all

theorem Memory.cellsOf_range' (f : Nat → Byte) (n : Nat) : ∀ lo, lo + n ≤ memSize →
    Memory.wfFrom lo (Memory.cellsOf f (List.range' lo n)) = true ∧
    ∀ a, (Memory.cellsOf f (List.range' lo n)).read a =
      if lo ≤ a ∧ a < lo + n then f a else Memory.unlisted a := by
  induction n with
  | zero => intro lo _; exact ⟨rfl, fun a => by rw [if_neg (by omega)]; rfl⟩
  | succ n ih =>
    intro lo h
    obtain ⟨hw, hr⟩ := ih (lo + 1) (by omega)
    rw [List.range'_succ, Memory.cellsOf_cons]
    refine ⟨Memory.wfFrom_consCell hw (by omega) (Nat.le_refl _), fun a => ?_⟩
    rw [Memory.read_consCell _ (Or.inl (Memory.read_below hw (Nat.lt_succ_self lo))), hr a]
    by_cases h1 : lo = a
    · subst h1; rw [if_pos rfl, if_pos (by omega)]
    · rw [if_neg h1]
      by_cases h2 : lo + 1 ≤ a ∧ a < lo + 1 + n
      · rw [if_pos h2, if_pos (by omega)]
      · rw [if_neg h2, if_neg (by omega)]

theorem Memory.ofBytes_eq (f : Nat → Byte) :
    Memory.ofBytes f = Memory.cellsOf f (List.range' 0 memSize) := by
  rw [Memory.ofBytes, List.range_eq_range']; rfl

/-- A constructed memory is canonical. -/
theorem Memory.wf_ofBytes (f : Nat → Byte) : (Memory.ofBytes f).wf = true := by
  rw [Memory.ofBytes_eq]; exact (Memory.cellsOf_range' f memSize 0 (by decide)).1

/-- A constructed memory holds the bytes it was given. -/
theorem Memory.read_ofBytes (f : Nat → Byte) {a : Nat} (h : a < memSize) :
    (Memory.ofBytes f).read a = f a := by
  rw [Memory.ofBytes_eq, (Memory.cellsOf_range' f memSize 0 (by decide)).2 a, if_pos (by omega)]

theorem Memory.ofBytes_unlisted : Memory.ofBytes Memory.unlisted = [] := by
  unfold Memory.ofBytes
  rw [List.filterMap_eq_nil_iff]
  intro a _
  rw [if_pos rfl]

/-- The range check answers none exactly when every address is in memory. -/
theorem firstOutOfRange_eq_none {base count : Nat} :
    firstOutOfRange base count = none ↔ count = 0 ∨ base + count ≤ memSize := by
  unfold firstOutOfRange
  split <;> simp_all

theorem firstOutOfRange_eq_some {base count a : Nat} :
    firstOutOfRange base count = some a ↔
      ¬ (count = 0 ∨ base + count ≤ memSize) ∧ max base memSize = a := by
  unfold firstOutOfRange
  split <;> simp_all

/-! The operations that write memory, and the state after reset. -/

theorem State.reset_mem_wf : State.reset.mem.wf = true := rfl

/-- A checked store at I keeps the canonical form. -/
theorem State.storeAtI_wf {bs : List Byte} {s : State} (h : s.mem.wf = true)
    (hr : s.iReg.toNat + bs.length ≤ memSize) : (State.storeAtI bs s).mem.wf = true :=
  Memory.wf_writeBytes bs h hr

/-- An image load keeps the canonical form, whatever the image's length. -/
theorem loadImage_wf {image : List Byte} {s : State} (h : s.mem.wf = true) :
    (loadImage image s).mem.wf = true := by
  refine Memory.wf_writeBytes _ h ?_
  rw [List.length_take]
  simp only [programBase, maxImage, memSize]
  omega

end Sys2Proof.Machine
end

