-- ==== Sys2Proof/Laws/State.lean ====
section
/-! SUPPORT. What each named update of the state does to each field of it, and what a register reads as after a write. -/

namespace Sys2Proof.Machine

@[simp] theorem State.setV_iReg (s : State) (r : Reg) (b : Byte) : (s.setV r b).iReg = s.iReg := rfl
@[simp] theorem State.setV_pc (s : State) (r : Reg) (b : Byte) : (s.setV r b).pc = s.pc := rfl
@[simp] theorem State.setV_stack (s : State) (r : Reg) (b : Byte) : (s.setV r b).stack = s.stack := rfl
@[simp] theorem State.setV_dt (s : State) (r : Reg) (b : Byte) : (s.setV r b).dt = s.dt := rfl
@[simp] theorem State.setV_st (s : State) (r : Reg) (b : Byte) : (s.setV r b).st = s.st := rfl
@[simp] theorem State.setV_fb (s : State) (r : Reg) (b : Byte) : (s.setV r b).fb = s.fb := rfl
@[simp] theorem State.setV_mem (s : State) (r : Reg) (b : Byte) : (s.setV r b).mem = s.mem := rfl
@[simp] theorem State.setV_status (s : State) (r : Reg) (b : Byte) : (s.setV r b).status = s.status := rfl
@[simp] theorem State.setV_flagAlias (s : State) (r : Reg) (b : Byte) : (s.setV r b).flagAlias = s.flagAlias := rfl
@[simp] theorem State.setV_stackLimit (s : State) (r : Reg) (b : Byte) : (s.setV r b).stackLimit = s.stackLimit := rfl
@[simp] theorem State.setV_calls (s : State) (r : Reg) (b : Byte) : (s.setV r b).calls = s.calls := rfl
@[simp] theorem State.setV_keyAnswers (s : State) (r : Reg) (b : Byte) : (s.setV r b).keyAnswers = s.keyAnswers := rfl
@[simp] theorem State.setV_randomBytes (s : State) (r : Reg) (b : Byte) : (s.setV r b).randomBytes = s.randomBytes := rfl
@[simp] theorem State.setV_awaitingImage (s : State) (r : Reg) (b : Byte) : (s.setV r b).awaitingImage = s.awaitingImage := rfl
@[simp] theorem State.setV_events (s : State) (r : Reg) (b : Byte) : (s.setV r b).events = s.events := rfl
@[simp] theorem State.setV_freeCount (s : State) (r : Reg) (b : Byte) : (s.setV r b).freeCount = s.freeCount := rfl

@[simp] theorem State.log_v (s : State) (e : Event) : (s.log e).v = s.v := rfl
@[simp] theorem State.log_iReg (s : State) (e : Event) : (s.log e).iReg = s.iReg := rfl
@[simp] theorem State.log_pc (s : State) (e : Event) : (s.log e).pc = s.pc := rfl
@[simp] theorem State.log_stack (s : State) (e : Event) : (s.log e).stack = s.stack := rfl
@[simp] theorem State.log_dt (s : State) (e : Event) : (s.log e).dt = s.dt := rfl
@[simp] theorem State.log_st (s : State) (e : Event) : (s.log e).st = s.st := rfl
@[simp] theorem State.log_fb (s : State) (e : Event) : (s.log e).fb = s.fb := rfl
@[simp] theorem State.log_mem (s : State) (e : Event) : (s.log e).mem = s.mem := rfl
@[simp] theorem State.log_status (s : State) (e : Event) : (s.log e).status = s.status := rfl
@[simp] theorem State.log_flagAlias (s : State) (e : Event) : (s.log e).flagAlias = s.flagAlias := rfl
@[simp] theorem State.log_stackLimit (s : State) (e : Event) : (s.log e).stackLimit = s.stackLimit := rfl
@[simp] theorem State.log_calls (s : State) (e : Event) : (s.log e).calls = s.calls := rfl
@[simp] theorem State.log_keyAnswers (s : State) (e : Event) : (s.log e).keyAnswers = s.keyAnswers := rfl
@[simp] theorem State.log_randomBytes (s : State) (e : Event) : (s.log e).randomBytes = s.randomBytes := rfl
@[simp] theorem State.log_awaitingImage (s : State) (e : Event) : (s.log e).awaitingImage = s.awaitingImage := rfl
@[simp] theorem State.log_events (s : State) (e : Event) : (s.log e).events = s.events ++ [e] := rfl
@[simp] theorem State.log_freeCount (s : State) (e : Event) : (s.log e).freeCount = s.freeCount := rfl

@[simp] theorem State.aim_v (s : State) (target : Word) : (s.aim target).v = s.v := rfl
@[simp] theorem State.aim_iReg (s : State) (target : Word) : (s.aim target).iReg = s.iReg := rfl
@[simp] theorem State.aim_pc (s : State) (target : Word) : (s.aim target).pc = target - 2 := rfl
@[simp] theorem State.aim_stack (s : State) (target : Word) : (s.aim target).stack = s.stack := rfl
@[simp] theorem State.aim_dt (s : State) (target : Word) : (s.aim target).dt = s.dt := rfl
@[simp] theorem State.aim_st (s : State) (target : Word) : (s.aim target).st = s.st := rfl
@[simp] theorem State.aim_fb (s : State) (target : Word) : (s.aim target).fb = s.fb := rfl
@[simp] theorem State.aim_mem (s : State) (target : Word) : (s.aim target).mem = s.mem := rfl
@[simp] theorem State.aim_status (s : State) (target : Word) : (s.aim target).status = s.status := rfl
@[simp] theorem State.aim_flagAlias (s : State) (target : Word) : (s.aim target).flagAlias = s.flagAlias := rfl
@[simp] theorem State.aim_stackLimit (s : State) (target : Word) : (s.aim target).stackLimit = s.stackLimit := rfl
@[simp] theorem State.aim_calls (s : State) (target : Word) : (s.aim target).calls = s.calls := rfl
@[simp] theorem State.aim_keyAnswers (s : State) (target : Word) : (s.aim target).keyAnswers = s.keyAnswers := rfl
@[simp] theorem State.aim_randomBytes (s : State) (target : Word) : (s.aim target).randomBytes = s.randomBytes := rfl
@[simp] theorem State.aim_awaitingImage (s : State) (target : Word) : (s.aim target).awaitingImage = s.awaitingImage := rfl
@[simp] theorem State.aim_events (s : State) (target : Word) : (s.aim target).events = s.events := rfl
@[simp] theorem State.aim_freeCount (s : State) (target : Word) : (s.aim target).freeCount = s.freeCount := rfl

@[simp] theorem State.skipIf_v (s : State) (c : Bool) : (s.skipIf c).v = s.v := rfl
@[simp] theorem State.skipIf_iReg (s : State) (c : Bool) : (s.skipIf c).iReg = s.iReg := rfl
@[simp] theorem State.skipIf_pc (s : State) (c : Bool) : (s.skipIf c).pc = if c then s.pc + 2 else s.pc := rfl
@[simp] theorem State.skipIf_stack (s : State) (c : Bool) : (s.skipIf c).stack = s.stack := rfl
@[simp] theorem State.skipIf_dt (s : State) (c : Bool) : (s.skipIf c).dt = s.dt := rfl
@[simp] theorem State.skipIf_st (s : State) (c : Bool) : (s.skipIf c).st = s.st := rfl
@[simp] theorem State.skipIf_fb (s : State) (c : Bool) : (s.skipIf c).fb = s.fb := rfl
@[simp] theorem State.skipIf_mem (s : State) (c : Bool) : (s.skipIf c).mem = s.mem := rfl
@[simp] theorem State.skipIf_status (s : State) (c : Bool) : (s.skipIf c).status = s.status := rfl
@[simp] theorem State.skipIf_flagAlias (s : State) (c : Bool) : (s.skipIf c).flagAlias = s.flagAlias := rfl
@[simp] theorem State.skipIf_stackLimit (s : State) (c : Bool) : (s.skipIf c).stackLimit = s.stackLimit := rfl
@[simp] theorem State.skipIf_calls (s : State) (c : Bool) : (s.skipIf c).calls = s.calls := rfl
@[simp] theorem State.skipIf_keyAnswers (s : State) (c : Bool) : (s.skipIf c).keyAnswers = s.keyAnswers := rfl
@[simp] theorem State.skipIf_randomBytes (s : State) (c : Bool) : (s.skipIf c).randomBytes = s.randomBytes := rfl
@[simp] theorem State.skipIf_awaitingImage (s : State) (c : Bool) : (s.skipIf c).awaitingImage = s.awaitingImage := rfl
@[simp] theorem State.skipIf_events (s : State) (c : Bool) : (s.skipIf c).events = s.events := rfl
@[simp] theorem State.skipIf_freeCount (s : State) (c : Bool) : (s.skipIf c).freeCount = s.freeCount := rfl

@[simp] theorem State.storeAtI_v (bs : List Byte) (s : State) : (s.storeAtI bs).v = s.v := rfl
@[simp] theorem State.storeAtI_iReg (bs : List Byte) (s : State) : (s.storeAtI bs).iReg = s.iReg := rfl
@[simp] theorem State.storeAtI_pc (bs : List Byte) (s : State) : (s.storeAtI bs).pc = s.pc := rfl
@[simp] theorem State.storeAtI_stack (bs : List Byte) (s : State) : (s.storeAtI bs).stack = s.stack := rfl
@[simp] theorem State.storeAtI_dt (bs : List Byte) (s : State) : (s.storeAtI bs).dt = s.dt := rfl
@[simp] theorem State.storeAtI_st (bs : List Byte) (s : State) : (s.storeAtI bs).st = s.st := rfl
@[simp] theorem State.storeAtI_fb (bs : List Byte) (s : State) : (s.storeAtI bs).fb = s.fb := rfl
@[simp] theorem State.storeAtI_status (bs : List Byte) (s : State) : (s.storeAtI bs).status = s.status := rfl
@[simp] theorem State.storeAtI_flagAlias (bs : List Byte) (s : State) : (s.storeAtI bs).flagAlias = s.flagAlias := rfl
@[simp] theorem State.storeAtI_stackLimit (bs : List Byte) (s : State) : (s.storeAtI bs).stackLimit = s.stackLimit := rfl
@[simp] theorem State.storeAtI_calls (bs : List Byte) (s : State) : (s.storeAtI bs).calls = s.calls := rfl
@[simp] theorem State.storeAtI_keyAnswers (bs : List Byte) (s : State) : (s.storeAtI bs).keyAnswers = s.keyAnswers := rfl
@[simp] theorem State.storeAtI_randomBytes (bs : List Byte) (s : State) : (s.storeAtI bs).randomBytes = s.randomBytes := rfl
@[simp] theorem State.storeAtI_awaitingImage (bs : List Byte) (s : State) : (s.storeAtI bs).awaitingImage = s.awaitingImage := rfl
@[simp] theorem State.storeAtI_events (bs : List Byte) (s : State) : (s.storeAtI bs).events = s.events := rfl
@[simp] theorem State.storeAtI_freeCount (bs : List Byte) (s : State) : (s.storeAtI bs).freeCount = s.freeCount := rfl

@[simp] theorem loadRegisters_iReg (x : Reg) (s : State) : (loadRegisters x s).iReg = s.iReg := rfl
@[simp] theorem loadRegisters_pc (x : Reg) (s : State) : (loadRegisters x s).pc = s.pc := rfl
@[simp] theorem loadRegisters_stack (x : Reg) (s : State) : (loadRegisters x s).stack = s.stack := rfl
@[simp] theorem loadRegisters_dt (x : Reg) (s : State) : (loadRegisters x s).dt = s.dt := rfl
@[simp] theorem loadRegisters_st (x : Reg) (s : State) : (loadRegisters x s).st = s.st := rfl
@[simp] theorem loadRegisters_fb (x : Reg) (s : State) : (loadRegisters x s).fb = s.fb := rfl
@[simp] theorem loadRegisters_mem (x : Reg) (s : State) : (loadRegisters x s).mem = s.mem := rfl
@[simp] theorem loadRegisters_status (x : Reg) (s : State) : (loadRegisters x s).status = s.status := rfl
@[simp] theorem loadRegisters_flagAlias (x : Reg) (s : State) : (loadRegisters x s).flagAlias = s.flagAlias := rfl
@[simp] theorem loadRegisters_stackLimit (x : Reg) (s : State) : (loadRegisters x s).stackLimit = s.stackLimit := rfl
@[simp] theorem loadRegisters_calls (x : Reg) (s : State) : (loadRegisters x s).calls = s.calls := rfl
@[simp] theorem loadRegisters_keyAnswers (x : Reg) (s : State) : (loadRegisters x s).keyAnswers = s.keyAnswers := rfl
@[simp] theorem loadRegisters_randomBytes (x : Reg) (s : State) : (loadRegisters x s).randomBytes = s.randomBytes := rfl
@[simp] theorem loadRegisters_awaitingImage (x : Reg) (s : State) : (loadRegisters x s).awaitingImage = s.awaitingImage := rfl
@[simp] theorem loadRegisters_events (x : Reg) (s : State) : (loadRegisters x s).events = s.events := rfl
@[simp] theorem loadRegisters_freeCount (x : Reg) (s : State) : (loadRegisters x s).freeCount = s.freeCount := rfl

@[simp] theorem State.beginCall_v (s : State) : s.beginCall.v = s.v := rfl
@[simp] theorem State.beginCall_iReg (s : State) : s.beginCall.iReg = s.iReg := rfl
@[simp] theorem State.beginCall_pc (s : State) : s.beginCall.pc = s.pc := rfl
@[simp] theorem State.beginCall_stack (s : State) : s.beginCall.stack = s.stack := rfl
@[simp] theorem State.beginCall_dt (s : State) : s.beginCall.dt = s.dt := rfl
@[simp] theorem State.beginCall_st (s : State) : s.beginCall.st = s.st := rfl
@[simp] theorem State.beginCall_fb (s : State) : s.beginCall.fb = s.fb := rfl
@[simp] theorem State.beginCall_mem (s : State) : s.beginCall.mem = s.mem := rfl
@[simp] theorem State.beginCall_status (s : State) : s.beginCall.status = s.status := rfl
@[simp] theorem State.beginCall_flagAlias (s : State) : s.beginCall.flagAlias = s.flagAlias := rfl
@[simp] theorem State.beginCall_stackLimit (s : State) : s.beginCall.stackLimit = s.stackLimit := rfl
@[simp] theorem State.beginCall_keyAnswers (s : State) : s.beginCall.keyAnswers = s.keyAnswers := rfl
@[simp] theorem State.beginCall_randomBytes (s : State) : s.beginCall.randomBytes = s.randomBytes := rfl
@[simp] theorem State.beginCall_events (s : State) : s.beginCall.events = s.events := rfl
@[simp] theorem State.beginCall_freeCount (s : State) : s.beginCall.freeCount = s.freeCount := rfl

theorem State.getV_setV (s : State) (r q : Reg) (b : Byte) :
    (s.setV r b).getV q = if r = q then b else s.getV q := by
  simp only [State.getV, State.setV, Vector.getElem_set, Fin.ext_iff]

@[simp] theorem State.getV_setV_self (s : State) (r : Reg) (b : Byte) : (s.setV r b).getV r = b := by
  simp [State.getV_setV]

theorem State.getV_setV_ne (s : State) {r q : Reg} (b : Byte) (h : q ≠ r) :
    (s.setV r b).getV q = s.getV q := by
  simp [State.getV_setV, h.symm]

@[simp] theorem State.getV_log (s : State) (e : Event) (q : Reg) : (s.log e).getV q = s.getV q := rfl
@[simp] theorem State.getV_aim (s : State) (p : Word) (q : Reg) : (s.aim p).getV q = s.getV q := rfl
@[simp] theorem State.getV_skipIf (s : State) (c : Bool) (q : Reg) :
    (s.skipIf c).getV q = s.getV q := rfl

theorem loadRegisters_getV (x : Reg) (s : State) (r : Reg) :
    (loadRegisters x s).getV r = if r ≤ x then s.byteAt r.val else s.getV r := by
  simp only [State.getV, loadRegisters, Vector.getElem_mapFinIdx, Fin.le_def]

/-! Construction: only memory and the two parameters differ from the state after reset. -/

@[simp] theorem State.construct_mem (p : LaunchParams) :
    (State.construct p).mem = Memory.ofBytes (initialByte p) := by simp only [State.construct]
@[simp] theorem State.construct_getV (p : LaunchParams) (r : Reg) :
    (State.construct p).getV r = State.reset.getV r := by simp only [State.construct, State.getV]
@[simp] theorem State.construct_pixel (p : LaunchParams) (x : Fin 64) (y : Fin 32) :
    (State.construct p).pixel x y = State.reset.pixel x y := by
  simp only [State.construct, State.pixel]
@[simp] theorem State.construct_fb (p : LaunchParams) :
    (State.construct p).fb = State.reset.fb := by simp only [State.construct]
@[simp] theorem State.construct_stack (p : LaunchParams) :
    (State.construct p).stack = [] := by simp only [State.construct, State.reset]
@[simp] theorem State.construct_events (p : LaunchParams) :
    (State.construct p).events = [] := by simp only [State.construct, State.reset]
@[simp] theorem State.construct_status (p : LaunchParams) :
    (State.construct p).status = .running := by simp only [State.construct, State.reset]

/-! STACK_LIMIT as a depth. -/

@[simp] theorem depth_unbounded : StackLimit.unbounded.depth = none := rfl
@[simp] theorem depth_finite (limit : Nat) (pos : 1 ≤ limit) :
    (StackLimit.finite limit pos).depth = some limit := rfl

end Sys2Proof.Machine
end

