-- ==== Sys2Proof/Laws/Screen.lean ====
section
/-! SUPPORT. The framebuffer controller: a cell after a write, what a PixelWrite does, and that ClearScreen's order is one of all the cells. -/

namespace Sys2Proof.Machine

theorem Screen.getCell_setCell (fb : Screen) (x x' : Fin 64) (y y' : Fin 32) (on : Bool) :
    (fb.setCell x y on)[x'.val][y'.val] = if x = x' ∧ y = y' then on else fb[x'.val][y'.val] := by
  unfold Screen.setCell
  simp only [Vector.getElem_set, Fin.ext_iff]
  by_cases hx : x.val = x'.val
  · by_cases hy : y.val = y'.val <;> simp [hx, hy]
  · simp [hx]

theorem Screen.getCell_blank (x : Fin 64) (y : Fin 32) : Screen.blank[x.val][y.val] = false := by
  simp [Screen.blank]

theorem Screen.ext_cells {a b : Screen}
    (h : ∀ (x : Fin 64) (y : Fin 32), a[x.val][y.val] = b[x.val][y.val]) : a = b :=
  Vector.ext fun i hi => Vector.ext fun j hj => h ⟨i, hi⟩ ⟨j, hj⟩

/-- A PixelWrite inside the grid. -/
theorem pixelWrite_inside {px py : Nat} (f : Bool) (s : State) (hx : px < 64) (hy : py < 32) :
    pixelWrite px py f s =
      ({ s with fb := s.fb.setCell ⟨px, hx⟩ ⟨py, hy⟩
                  (if f then false else !s.pixel ⟨px, hx⟩ ⟨py, hy⟩) }).log
        (.notify ⟨px, hx⟩ ⟨py, hy⟩ (if f then false else !s.pixel ⟨px, hx⟩ ⟨py, hy⟩)) := by
  unfold pixelWrite; rw [dif_pos ⟨hx, hy⟩]

/-- A PixelWrite outside the grid does nothing. -/
theorem pixelWrite_outside {px py : Nat} (f : Bool) (s : State) (h : ¬ (px < 64 ∧ py < 32)) :
    pixelWrite px py f s = s := by
  unfold pixelWrite; rw [dif_neg h]

theorem pixel_pixelWrite (px py : Nat) (f : Bool) (s : State) (x : Fin 64) (y : Fin 32) :
    (pixelWrite px py f s).pixel x y =
      if x.val = px ∧ y.val = py then (if f then false else !s.pixel x y) else s.pixel x y := by
  by_cases h : px < 64 ∧ py < 32
  · rw [pixelWrite_inside f s h.1 h.2]
    simp only [State.pixel, State.log_fb, Screen.getCell_setCell, Fin.ext_iff]
    by_cases h2 : x.val = px ∧ y.val = py
    · obtain ⟨rfl, rfl⟩ := h2; simp
    · rw [if_neg (by omega), if_neg h2]
  · rw [pixelWrite_outside f s h, if_neg (by have := x.isLt; have := y.isLt; omega)]

/-- A PixelWrite changes the framebuffer and the events, and nothing else. -/
theorem pixelWrite_frame (px py : Nat) (f : Bool) (s : State) :
    pixelWrite px py f s =
      { s with fb := (pixelWrite px py f s).fb, events := (pixelWrite px py f s).events } := by
  by_cases h : px < 64 ∧ py < 32
  · rw [pixelWrite_inside f s h.1 h.2]; rfl
  · rw [pixelWrite_outside f s h]

theorem arrange_perm {α : Type} (pick : Nat → Nat) (l : List α) : (arrange pick l).Perm l := by
  induction l with
  | nil => exact List.Perm.refl _
  | cons c cs ih =>
    refine (List.perm_insertIdx c _ ?_).trans (ih.cons c)
    rw [ih.length_eq]
    exact Nat.le_of_lt_succ (Nat.mod_lt _ (Nat.succ_pos _))

theorem mem_gridCells (c : Fin 64 × Fin 32) : c ∈ gridCells := by
  simp [gridCells]

theorem gridCells_length : gridCells.length = 2048 := by
  simp [gridCells]

theorem gridCells_nodup : gridCells.Nodup := by
  unfold gridCells
  rw [List.nodup_flatMap]
  refine ⟨fun x _ => (List.nodup_finRange 32).map fun a b h => by simpa using h, ?_⟩
  refine (List.nodup_finRange 64).imp ?_
  intro a b hab c hc hc'
  simp only [List.mem_map] at hc hc'
  obtain ⟨y, _, rfl⟩ := hc
  obtain ⟨z, _, h⟩ := hc'
  exact hab (by simpa using (congrArg Prod.fst h).symm)

/-- ClearScreen visits every cell once. -/
theorem clearOrder_perm (k : Nat) : (clearOrder k).Perm gridCells := arrange_perm _ _

end Sys2Proof.Machine
end

