-- ==== Sys2Proof/Laws/Ops.lean ====
section
/-! SUPPORT. For each shared operation, once, everything it can do: the range check, the keypad remap, the capability calls, the flag writes, the drawing of a sprite, and the advance. -/

namespace Sys2Proof.Machine

/-! ### Checks -/

theorem guardRange_inside {raw : Word} {count : Nat} {effect : State → State} {s : State}
    (h : count = 0 ∨ s.iReg.toNat + count ≤ memSize) :
    guardRange raw count effect s = .next (effect s) := by
  unfold guardRange; rw [firstOutOfRange_eq_none.2 h]

theorem guardRange_outside {raw : Word} {count : Nat} {effect : State → State} {s : State}
    (h : ¬ (count = 0 ∨ s.iReg.toNat + count ≤ memSize)) :
    guardRange raw count effect s =
      .next { s with status := .halted (.memoryOutOfRange raw (max s.iReg.toNat memSize)) } := by
  unfold guardRange; rw [firstOutOfRange_eq_some.2 ⟨h, rfl⟩]; rfl

theorem remap_eq_none {b : Byte} : remap b = none ↔ 15 < b.toNat := by
  rw [remap, List.getElem?_eq_none_iff]; simp [keypadPerm]; omega

theorem withKey_outside {raw : Word} {x : Reg} {effect : Fin 16 → State → State} {s : State}
    (h : 15 < (s.getV x).toNat) :
    withKey raw x effect s =
      .next { s with status := .halted (.keyIndexOutOfRange raw (s.getV x)) } := by
  unfold withKey; rw [remap_eq_none.2 h]; rfl

theorem withKey_inside {raw : Word} {x : Reg} {effect : Fin 16 → State → State} {s : State}
    {k : Fin 16} (h : remap (s.getV x) = some k) :
    withKey raw x effect s = .next (effect k s) := by
  unfold withKey; rw [h]

theorem remap_inside {b : Byte} (h : b.toNat ≤ 15) : ∃ k, remap b = some k := by
  cases hr : remap b with
  | none => exact absurd (remap_eq_none.1 hr) (by omega)
  | some k => exact ⟨k, rfl⟩

theorem stackFull_iff (s : State) :
    s.stackFull = true ↔ s.stackLimit.depth = some s.stack.length := by
  unfold State.stackFull
  cases s.stackLimit with
  | unbounded => simp
  | finite limit pos => simp only [depth_finite, beq_iff_eq, Option.some.injEq]; exact eq_comm

theorem stackLimit_depth_pos {l : StackLimit} {n : Nat} (h : l.depth = some n) : 1 ≤ n := by
  cases l with
  | unbounded => cases h
  | finite limit pos => cases h; exact pos

/-- An empty stack has room under every STACK_LIMIT. -/
theorem stackFull_empty {s : State} (h : s.stack = []) : s.stackFull = false := by
  rw [← Bool.not_eq_true, stackFull_iff, h]
  exact fun hd => absurd (stackLimit_depth_pos hd) (by decide)

/-! ### Capability calls -/

/-- A keypad query answers, records itself, and uses up either one given answer or one free value. -/
theorem keyPressed_spec (k : Fin 16) (s : State) :
    (keyPressed k s).2 = { s with
      keyAnswers := s.keyAnswers.tail
      freeCount := if s.keyAnswers = [] then s.freeCount + 1 else s.freeCount
      events := s.events ++ [.keyQuery k (keyPressed k s).1] } := by
  unfold keyPressed
  cases h : s.keyAnswers with
  | nil => simp [State.log]
  | cons a rest => simp [State.log]

/-- The answer of a query is the next the host gives. -/
theorem keyPressed_given {k : Fin 16} {s : State} {a : Bool} {rest : List Bool}
    (h : s.keyAnswers = a :: rest) : (keyPressed k s).1 = a := by
  unfold keyPressed; rw [h]

/-- A request to the random source answers, records itself, and uses up either one given answer or
one free value. -/
theorem randomByte_spec (s : State) :
    (randomByte s).2 = { s with
      randomBytes := s.randomBytes.tail
      freeCount := if s.randomBytes = [] then s.freeCount + 1 else s.freeCount
      events := s.events ++ [.randomRequest (randomByte s).1] } := by
  unfold randomByte
  cases h : s.randomBytes with
  | nil => simp [State.log]
  | cons a rest => simp [State.log]

/-- The answer of a request is the next the host gives. -/
theorem randomByte_given {s : State} {r : Byte} {rest : List Byte}
    (h : s.randomBytes = r :: rest) : (randomByte s).1 = r := by
  unfold randomByte; rw [h]

/-! ### Flag writes -/

/-- The flag write changes registers only. -/
theorem writeFlagged_frame (flag result : Byte → Byte → Byte) (x y : Reg) (s : State) :
    writeFlagged flag result x y s = { s with v := (writeFlagged flag result x y s).v } := by
  unfold writeFlagged
  split <;> rfl

/-- The flag write changes V[x] and VF only. -/
theorem writeFlagged_other (flag result : Byte → Byte → Byte) (x y : Reg) (s : State) {r : Reg}
    (hx : r ≠ x) (hf : r ≠ regF) : (writeFlagged flag result x y s).getV r = s.getV r := by
  unfold writeFlagged
  split <;> simp [State.getV_setV_ne, hx, hf]

/-! ### Drawing -/

/-- Cells toggled one after another. -/
def toggles (cells : List (Nat × Nat)) (s : State) : State :=
  cells.foldl (fun s c => pixelWrite c.1 c.2 false s) s

/-- The (column, row) pairs of a sprite row's 1 bits, in the grid or not. -/
def rowCells (px y : Nat) (b : Byte) : List (Nat × Nat) :=
  ((List.range 8).filter (spriteBit b)).map fun bit => (px + bit, y)

theorem drawRow_eq_toggles (px y : Nat) (b : Byte) (s : State) :
    drawRow px y b s = toggles (rowCells px y b) s := by
  unfold drawRow toggles rowCells
  rw [List.foldl_map]
  generalize List.range 8 = l
  induction l generalizing s with
  | nil => rfl
  | cons bit rest ih =>
    rw [List.foldl_cons, ih, List.filter_cons]
    split <;> rfl

theorem toggles_frame (cells : List (Nat × Nat)) (s : State) :
    toggles cells s = { s with fb := (toggles cells s).fb, events := (toggles cells s).events } := by
  induction cells generalizing s with
  | nil => rfl
  | cons c rest ih =>
    have h := ih (pixelWrite c.1 c.2 false s)
    rw [pixelWrite_frame c.1 c.2 false s] at h
    rw [toggles, List.foldl_cons, ← toggles, pixelWrite_frame c.1 c.2 false s]
    exact h

theorem toggles_append (a b : List (Nat × Nat)) (s : State) :
    toggles (a ++ b) s = toggles b (toggles a s) := by
  simp [toggles, List.foldl_append]

theorem toggles_byteAt (cells : List (Nat × Nat)) (s : State) (k : Nat) :
    (toggles cells s).byteAt k = s.byteAt k := by
  rw [toggles_frame]; rfl

/-- A Draw toggles the cells of its rows' 1 bits, in order. -/
theorem drawRows_eq_toggles (px py count : Nat) (s : State) :
    drawRows px py count s =
      toggles ((List.range count).flatMap fun row => rowCells px (py + row) (s.byteAt row)) s := by
  unfold drawRows
  generalize List.range count = l
  suffices h : ∀ t : State, (∀ k, t.byteAt k = s.byteAt k) →
      l.foldl (fun t row => drawRow px (py + row) (t.byteAt row) t) t =
        toggles (l.flatMap fun row => rowCells px (py + row) (s.byteAt row)) t from h s fun _ => rfl
  induction l with
  | nil => intro t _; rfl
  | cons row rest ih =>
    intro t ht
    rw [List.foldl_cons, List.flatMap_cons, toggles_append, drawRow_eq_toggles, ht row]
    exact ih _ fun k => by rw [toggles_byteAt, ht]

/-- Toggling different cells toggles each of them that is in the grid. -/
theorem pixel_toggles (cells : List (Nat × Nat)) (hn : cells.Nodup) (s : State) (x : Fin 64)
    (y : Fin 32) :
    (toggles cells s).pixel x y =
      if (x.val, y.val) ∈ cells then !s.pixel x y else s.pixel x y := by
  induction cells generalizing s with
  | nil => rfl
  | cons c rest ih =>
    obtain ⟨px, py⟩ := c
    rw [List.nodup_cons] at hn
    rw [toggles, List.foldl_cons, ← toggles, ih hn.2, pixel_pixelWrite]
    by_cases h : x.val = px ∧ y.val = py
    · have hnot : (x.val, y.val) ∉ rest := by rw [h.1, h.2]; exact hn.1
      have hmem : (x.val, y.val) ∈ (px, py) :: rest := by rw [h.1, h.2]; exact List.mem_cons_self
      rw [if_neg hnot, if_pos h, if_pos hmem, if_neg (by decide)]
    · have : ((x.val, y.val) ∈ (px, py) :: rest) ↔ (x.val, y.val) ∈ rest := by
        simp only [List.mem_cons, Prod.mk.injEq, h, false_or]
      rw [if_neg h]; simp only [this]

/-- The notifications of toggling different cells: one per cell in the grid, in order, carrying the
cell's new value. -/
theorem events_toggles (cells : List (Nat × Nat)) (hn : cells.Nodup) (s : State) :
    (toggles cells s).events = s.events ++
      (cells.filter fun c => decide (c.1 < 64) && decide (c.2 < 32)).map fun c =>
        .notify (Fin.ofNat 64 c.1) (Fin.ofNat 32 c.2)
          (!s.pixel (Fin.ofNat 64 c.1) (Fin.ofNat 32 c.2)) := by
  induction cells generalizing s with
  | nil => simp [toggles]
  | cons c rest ih =>
    obtain ⟨px, py⟩ := c
    rw [List.nodup_cons] at hn
    rw [toggles, List.foldl_cons, ← toggles, ih hn.2, List.filter_cons]
    have hrest : (rest.filter fun c => decide (c.1 < 64) && decide (c.2 < 32)).map (fun c =>
          Event.notify (Fin.ofNat 64 c.1) (Fin.ofNat 32 c.2)
            (!(pixelWrite px py false s).pixel (Fin.ofNat 64 c.1) (Fin.ofNat 32 c.2))) =
        (rest.filter fun c => decide (c.1 < 64) && decide (c.2 < 32)).map (fun c =>
          Event.notify (Fin.ofNat 64 c.1) (Fin.ofNat 32 c.2)
            (!s.pixel (Fin.ofNat 64 c.1) (Fin.ofNat 32 c.2))) := by
      refine List.map_congr_left fun c hc => ?_
      rw [List.mem_filter] at hc
      simp only [Bool.and_eq_true, decide_eq_true_eq] at hc
      rw [pixel_pixelWrite, if_neg]
      rintro ⟨h1, h2⟩
      simp only [Fin.val_ofNat, Nat.mod_eq_of_lt hc.2.1, Nat.mod_eq_of_lt hc.2.2] at h1 h2
      exact hn.1 (by rw [← h1, ← h2]; exact hc.1)
    rw [hrest]
    by_cases h : px < 64 ∧ py < 32
    · rw [if_pos (by simp [h.1, h.2]), pixelWrite_inside false s h.1 h.2]
      simp [State.log, Fin.ofNat, Nat.mod_eq_of_lt h.1, Nat.mod_eq_of_lt h.2]
    · rw [if_neg (by simp; omega), pixelWrite_outside false s h]

theorem mem_rowCells {px y : Nat} {b : Byte} {c : Nat × Nat} :
    c ∈ rowCells px y b ↔ c.2 = y ∧ px ≤ c.1 ∧ c.1 < px + 8 ∧ spriteBit b (c.1 - px) = true := by
  obtain ⟨cx, cy⟩ := c
  simp only [rowCells, List.mem_map, List.mem_filter, List.mem_range, Prod.mk.injEq]
  constructor
  · rintro ⟨bit, ⟨h1, h2⟩, rfl, rfl⟩
    exact ⟨rfl, by omega, by omega, by rwa [Nat.add_sub_cancel_left]⟩
  · rintro ⟨rfl, h1, h2, h3⟩
    exact ⟨cx - px, ⟨by omega, h3⟩, by omega, rfl⟩

theorem rowCells_nodup (px y : Nat) (b : Byte) : (rowCells px y b).Nodup := by
  refine ((List.nodup_range).filter _).map ?_
  intro a c h
  simp only [Prod.mk.injEq] at h
  omega

/-- No cell is visited twice in one Draw. -/
theorem spriteRows_nodup (px py count : Nat) (byteOf : Nat → Byte) :
    ((List.range count).flatMap fun row => rowCells px (py + row) (byteOf row)).Nodup := by
  rw [List.nodup_flatMap]
  refine ⟨fun row _ => rowCells_nodup _ _ _, (List.nodup_range (n := count)).imp ?_⟩
  intro a b hab c hc hc'
  rw [mem_rowCells] at hc hc'
  omega

/-! ### The advance -/

theorem State.advance_running {s : State} (h : s.status = .running) :
    s.advance = { s with pc := s.pc + 2 } := by
  unfold State.advance; rw [h]

theorem State.advance_halted {s : State} {f : Fatal} (h : s.status = .halted f) :
    s.advance = s := by
  unfold State.advance; rw [h]

end Sys2Proof.Machine
end

