-- ==== Sys2Proof/Laws/PerInstr.lean ====
section
/-! SUPPORT. Statements for all instructions, one lemma per constructor. -/

namespace Sys2Proof.Laws.RowMatches

/-- The opcode of an instruction matches its row of the opcode map: `(raw & mask) == match`
(30_encoding.md R94). -/
def Statement (i : Instr) : Prop := encode i &&& rowMask i = rowBits i

theorem clearScreen : Statement .clearScreen := by
  unfold Statement; decide

theorem ret : Statement .ret := by
  unfold Statement; decide

theorem jump (nnn : Addr12) : Statement (.jump nnn) := by
  have := nnn.isLt
  refine BitVec.eq_of_toNat_eq ((and_F000 _).trans ?_)
  simp [encode, rowBits, packNNN_toNat]
  omega

theorem call (nnn : Addr12) : Statement (.call nnn) := by
  have := nnn.isLt
  refine BitVec.eq_of_toNat_eq ((and_F000 _).trans ?_)
  simp [encode, rowBits, packNNN_toNat]
  omega

theorem skipEq (x : Reg) (kk : Byte) : Statement (.skipEq x kk) := by
  have := x.isLt
  have := kk.isLt
  refine BitVec.eq_of_toNat_eq ((and_F000 _).trans ?_)
  simp [encode, rowBits, packXKK_toNat]
  omega

theorem skipNe (x : Reg) (kk : Byte) : Statement (.skipNe x kk) := by
  have := x.isLt
  have := kk.isLt
  refine BitVec.eq_of_toNat_eq ((and_F000 _).trans ?_)
  simp [encode, rowBits, packXKK_toNat]
  omega

theorem skipEqReg (x y : Reg) : Statement (.skipEqReg x y) := by
  have := x.isLt
  have := y.isLt
  refine BitVec.eq_of_toNat_eq ((and_F00F _).trans ?_)
  simp [encode, rowBits, packXYN_toNat]
  omega

theorem loadImm (x : Reg) (kk : Byte) : Statement (.loadImm x kk) := by
  have := x.isLt
  have := kk.isLt
  refine BitVec.eq_of_toNat_eq ((and_F000 _).trans ?_)
  simp [encode, rowBits, packXKK_toNat]
  omega

theorem addImm (x : Reg) (kk : Byte) : Statement (.addImm x kk) := by
  have := x.isLt
  have := kk.isLt
  refine BitVec.eq_of_toNat_eq ((and_F000 _).trans ?_)
  simp [encode, rowBits, packXKK_toNat]
  omega

theorem move (x y : Reg) : Statement (.move x y) := by
  have := x.isLt
  have := y.isLt
  refine BitVec.eq_of_toNat_eq ((and_F00F _).trans ?_)
  simp [encode, rowBits, packXYN_toNat]
  omega

theorem or (x y : Reg) : Statement (.or x y) := by
  have := x.isLt
  have := y.isLt
  refine BitVec.eq_of_toNat_eq ((and_F00F _).trans ?_)
  simp [encode, rowBits, packXYN_toNat]
  omega

theorem and (x y : Reg) : Statement (.and x y) := by
  have := x.isLt
  have := y.isLt
  refine BitVec.eq_of_toNat_eq ((and_F00F _).trans ?_)
  simp [encode, rowBits, packXYN_toNat]
  omega

theorem xor (x y : Reg) : Statement (.xor x y) := by
  have := x.isLt
  have := y.isLt
  refine BitVec.eq_of_toNat_eq ((and_F00F _).trans ?_)
  simp [encode, rowBits, packXYN_toNat]
  omega

theorem add (x y : Reg) : Statement (.add x y) := by
  have := x.isLt
  have := y.isLt
  refine BitVec.eq_of_toNat_eq ((and_F00F _).trans ?_)
  simp [encode, rowBits, packXYN_toNat]
  omega

theorem sub (x y : Reg) : Statement (.sub x y) := by
  have := x.isLt
  have := y.isLt
  refine BitVec.eq_of_toNat_eq ((and_F00F _).trans ?_)
  simp [encode, rowBits, packXYN_toNat]
  omega

theorem shr (x y : Reg) : Statement (.shr x y) := by
  have := x.isLt
  have := y.isLt
  refine BitVec.eq_of_toNat_eq ((and_F00F _).trans ?_)
  simp [encode, rowBits, packXYN_toNat]
  omega

theorem subn (x y : Reg) : Statement (.subn x y) := by
  have := x.isLt
  have := y.isLt
  refine BitVec.eq_of_toNat_eq ((and_F00F _).trans ?_)
  simp [encode, rowBits, packXYN_toNat]
  omega

theorem shl (x y : Reg) : Statement (.shl x y) := by
  have := x.isLt
  have := y.isLt
  refine BitVec.eq_of_toNat_eq ((and_F00F _).trans ?_)
  simp [encode, rowBits, packXYN_toNat]
  omega

theorem skipNeReg (x y : Reg) : Statement (.skipNeReg x y) := by
  have := x.isLt
  have := y.isLt
  refine BitVec.eq_of_toNat_eq ((and_F00F _).trans ?_)
  simp [encode, rowBits, packXYN_toNat]
  omega

theorem loadI (nnn : Addr12) : Statement (.loadI nnn) := by
  have := nnn.isLt
  refine BitVec.eq_of_toNat_eq ((and_F000 _).trans ?_)
  simp [encode, rowBits, packNNN_toNat]
  omega

theorem jumpAdd (nnn : Addr12) : Statement (.jumpAdd nnn) := by
  have := nnn.isLt
  refine BitVec.eq_of_toNat_eq ((and_F000 _).trans ?_)
  simp [encode, rowBits, packNNN_toNat]
  omega

theorem rand (x : Reg) (kk : Byte) : Statement (.rand x kk) := by
  have := x.isLt
  have := kk.isLt
  refine BitVec.eq_of_toNat_eq ((and_F000 _).trans ?_)
  simp [encode, rowBits, packXKK_toNat]
  omega

theorem draw (x y n : Fin 16) : Statement (.draw x y n) := by
  have := x.isLt
  have := y.isLt
  have := n.isLt
  refine BitVec.eq_of_toNat_eq ((and_F000 _).trans ?_)
  simp [encode, rowBits, packXYN_toNat]
  omega

theorem skipPressed (x : Reg) : Statement (.skipPressed x) := by
  have := x.isLt
  refine BitVec.eq_of_toNat_eq ((and_F0FF _).trans ?_)
  simp [encode, rowBits, packXKK_toNat]
  omega

theorem skipNotPressed (x : Reg) : Statement (.skipNotPressed x) := by
  have := x.isLt
  refine BitVec.eq_of_toNat_eq ((and_F0FF _).trans ?_)
  simp [encode, rowBits, packXKK_toNat]
  omega

theorem readDelay (x : Reg) : Statement (.readDelay x) := by
  have := x.isLt
  refine BitVec.eq_of_toNat_eq ((and_F0FF _).trans ?_)
  simp [encode, rowBits, packXKK_toNat]
  omega

theorem waitKey (x : Reg) : Statement (.waitKey x) := by
  have := x.isLt
  refine BitVec.eq_of_toNat_eq ((and_F0FF _).trans ?_)
  simp [encode, rowBits, packXKK_toNat]
  omega

theorem setDelay (x : Reg) : Statement (.setDelay x) := by
  have := x.isLt
  refine BitVec.eq_of_toNat_eq ((and_F0FF _).trans ?_)
  simp [encode, rowBits, packXKK_toNat]
  omega

theorem setSound (x : Reg) : Statement (.setSound x) := by
  have := x.isLt
  refine BitVec.eq_of_toNat_eq ((and_F0FF _).trans ?_)
  simp [encode, rowBits, packXKK_toNat]
  omega

theorem addI (x : Reg) : Statement (.addI x) := by
  have := x.isLt
  refine BitVec.eq_of_toNat_eq ((and_F0FF _).trans ?_)
  simp [encode, rowBits, packXKK_toNat]
  omega

theorem spriteDigit (x : Reg) : Statement (.spriteDigit x) := by
  have := x.isLt
  refine BitVec.eq_of_toNat_eq ((and_F0FF _).trans ?_)
  simp [encode, rowBits, packXKK_toNat]
  omega

theorem storeBCD (x : Reg) : Statement (.storeBCD x) := by
  have := x.isLt
  refine BitVec.eq_of_toNat_eq ((and_F0FF _).trans ?_)
  simp [encode, rowBits, packXKK_toNat]
  omega

theorem storeRegisters (x : Reg) : Statement (.storeRegisters x) := by
  have := x.isLt
  refine BitVec.eq_of_toNat_eq ((and_F0FF _).trans ?_)
  simp [encode, rowBits, packXKK_toNat]
  omega

theorem readRegisters (x : Reg) : Statement (.readRegisters x) := by
  have := x.isLt
  refine BitVec.eq_of_toNat_eq ((and_F0FF _).trans ?_)
  simp [encode, rowBits, packXKK_toNat]
  omega

theorem unrecognized (raw : Word) : Statement (.unrecognized raw) := by
  simp [Statement, rowMask, rowBits]

end Sys2Proof.Laws.RowMatches
end

