-- ==== Sys2Proof/Tests/Slice0.lean ====
section
/-! SUPPORT. Tests, each expected value from spec/95_test_vectors.md or worked out from the rule its comment names, and for each statement with hypotheses states and operands that meet them. -/

namespace Sys2Proof.Tests

open Sys2Proof.Machine

/-! ### Helpers -/

/-- The launch state L0 of 95_test_vectors.md. -/
def launch : State := State.reset

/-- The state L0 with V0 and V1 set. -/
def regs01 (a b : Byte) : State := (launch.setV 0 a).setV 1 b

/-- The launch state with a word at an address and pc there. -/
def atPc (pc : Word) (s : State) : State := { s with pc := pc }

/-- An outcome is a next state with a property. -/
def gives (o : Host.Outcome State Fault Refusal) (p : State → Bool) : Bool :=
  match o with
  | .next t => p t
  | .fault _ => false
  | .refused _ => false

/-- An outcome is this refusal. -/
def refuses (o : Host.Outcome State Fault Refusal) (r : Refusal) : Bool :=
  match o with
  | .next _ => false
  | .fault _ => false
  | .refused q => q == r

/-- The step that runs an opcode placed at pc. -/
def run (s : State) (opcode : Nat) : Host.Outcome State Fault Refusal :=
  step (s.withFetchWord 16 opcode)

/-- A step of an opcode ends in the status Halted with this fatal value, pc unmoved. -/
def fails (s : State) (opcode : Nat) (f : Fatal) : Bool :=
  gives (run s opcode) fun t => t.status == .halted f && t.pc == s.pc && t.events == s.events

/-- The cells of a list are true. -/
def lit (cells : List (Fin 64 × Fin 32)) (t : State) : Bool := cells.all fun c => t.pixel c.1 c.2

/-! ### WellFormed: one word per group of 30_encoding.md R96 refused, and one accepted -/

theorem test_wf_refuses_major_0 : wellFormed (.unrecognized 0x00E0) = false := by decide
theorem test_wf_refuses_return : wellFormed (.unrecognized 0x00EE) = false := by decide
theorem test_wf_refuses_major_1 : wellFormed (.unrecognized 0x1204) = false := by decide
theorem test_wf_refuses_major_5 : wellFormed (.unrecognized 0x5010) = false := by decide
theorem test_wf_refuses_major_8 : wellFormed (.unrecognized 0x801E) = false := by decide
theorem test_wf_refuses_major_9 : wellFormed (.unrecognized 0x9010) = false := by decide
theorem test_wf_refuses_major_E : wellFormed (.unrecognized 0xE3A1) = false := by decide
theorem test_wf_refuses_major_F : wellFormed (.unrecognized 0xF165) = false := by decide
theorem test_wf_accepts_illegal_words :
    ([0x0000, 0x00E1, 0x0123, 0x5011, 0x8008, 0x800F, 0x9001, 0xE09F, 0xF0FF, 0xFFFF] : List Word).all
      (fun w => wellFormed (.unrecognized w)) = true := by decide

/-! ### Decoding: words written out bit by bit from the opcode map (30_encoding.md R91, R95) -/

theorem test_decode_display :
    decode 0b0000_0000_1110_0000 = .clearScreen ∧
    decode 0b1101_0001_0010_1111 = .draw 1 2 15 := by decide

theorem test_decode_control :
    decode 0b0000_0000_1110_1110 = .ret ∧
    decode 0b0001_0010_0011_0100 = .jump 0x234 ∧
    decode 0b0010_1111_0000_0001 = .call 0xF01 ∧
    decode 0b0011_0001_1000_0010 = .skipEq 1 0x82 ∧
    decode 0b0100_1110_0111_1101 = .skipNe 14 0x7D ∧
    decode 0b0101_0110_0111_0000 = .skipEqReg 6 7 ∧
    decode 0b1001_0011_0100_0000 = .skipNeReg 3 4 ∧
    decode 0b1011_0001_0010_0011 = .jumpAdd 0x123 := by decide

theorem test_decode_immediates :
    decode 0b0110_0011_0001_0010 = .loadImm 3 0x12 ∧
    decode 0b0111_1111_1000_0001 = .addImm 15 0x81 ∧
    decode 0b1100_0100_0000_1111 = .rand 4 0x0F := by decide

theorem test_decode_alu :
    decode 0b1000_0001_0010_0000 = .move 1 2 ∧
    decode 0b1000_0001_0010_0001 = .or 1 2 ∧
    decode 0b1000_0001_0010_0010 = .and 1 2 ∧
    decode 0b1000_0001_0010_0011 = .xor 1 2 ∧
    decode 0b1000_0001_0010_0100 = .add 1 2 ∧
    decode 0b1000_0001_0010_0101 = .sub 1 2 ∧
    decode 0b1000_0001_0010_0110 = .shr 1 2 ∧
    decode 0b1000_0001_0010_0111 = .subn 1 2 ∧
    decode 0b1000_0001_0010_1110 = .shl 1 2 := by decide

theorem test_decode_index :
    decode 0b1010_1000_0000_0001 = .loadI 0x801 ∧
    decode 0b1111_0101_0001_1110 = .addI 5 ∧
    decode 0b1111_0101_0010_1001 = .spriteDigit 5 ∧
    decode 0b1111_0101_0011_0011 = .storeBCD 5 ∧
    decode 0b1111_0101_0101_0101 = .storeRegisters 5 ∧
    decode 0b1111_0101_0110_0101 = .readRegisters 5 := by decide

theorem test_decode_keypad_timers :
    decode 0b1110_1010_1001_1110 = .skipPressed 10 ∧
    decode 0b1110_1010_1010_0001 = .skipNotPressed 10 ∧
    decode 0b1111_1010_0000_0111 = .readDelay 10 ∧
    decode 0b1111_1010_0000_1010 = .waitKey 10 ∧
    decode 0b1111_1010_0001_0101 = .setDelay 10 ∧
    decode 0b1111_1010_0001_1000 = .setSound 10 := by decide

/-- V-E1, V-E2, V-E3, V-E5, V-E7, V-E8, V-E9, V-E12, V-E15, V-E16. -/
theorem test_decode_unrecognized :
    ([0x0000, 0x00E1, 0x0123, 0x5011, 0x800F, 0x8AB8, 0x9001, 0xE09F, 0xF0FF, 0xFFFF] : List Word).all
      (fun w => decode w == .unrecognized w) = true := by decide

/-- 20_memory.md R63: the byte at the lower address is the high byte. -/
theorem test_decode_bytes_big_endian :
    decodeBytes [0x12, 0x34, 0x56] = .ok (.jump 0x234, [0x56]) := by decide
theorem test_decode_bytes_truncated : decodeBytes [0x12] = .error .truncated := by decide

/-! ### Fetch and step -/

/-- V-S1: the last legal fetch address. -/
theorem test_fetch_last_address :
    gives (run (atPc 0xFFE launch) 0x1200) (fun t => t.pc == 0x200 && t.status == .running) = true := by
  decide
/-- V-S2. -/
theorem test_fetch_out_of_range :
    gives (step (atPc 0xFFF launch)) (fun t => t.status == .halted (.fetchOutOfRange 0xFFF)) = true := by
  decide
/-- V-S3: an odd pc. -/
theorem test_fetch_odd_address :
    gives (run (atPc 0x201 launch) 0x602A) (fun t => t.getV 0 == 0x2A && t.pc == 0x203) = true := by
  decide
/-- V-S6. -/
theorem test_unrecognized : fails launch 0x8008 (.unrecognized 0x8008) = true := by decide
/-- V-S7, V-T5. -/
theorem test_halted_refuses :
    refuses (step (launch.haltedBy (.unrecognized 0x8008))) .haltedCore = true ∧
    refuses (step { launch.haltedBy (.unrecognized 0x8008) with calls := [.tick] }) .haltedCore = true := by
  decide
/-- W5: an image placed at 0x200, the byte after it as before. -/
theorem test_image_load :
    gives (step { launch with calls := [.load [0x12, 0x34, 0xAB]] }) (fun t =>
      t.mem.read 0x200 == 0x12 && t.mem.read 0x201 == 0x34 && t.mem.read 0x202 == 0xAB &&
      t.mem.read 0x203 == launch.mem.read 0x203 && t.pc == 0x200) = true := by decide
/-- V-S5: an empty image. A load after the first transaction is refused. -/
theorem test_image_load_once :
    gives (step { launch with calls := [.load []] }) (fun t => t.mem == [] && !t.awaitingImage) = true ∧
    refuses (step { launch with calls := [.load [0x00]], awaitingImage := false }) .lateImageLoad = true := by
  decide
/-- P5: a store into the program is what the next step fetches (20_memory.md R74). -/
theorem test_self_modifying :
    gives (run { regs01 0x70 0x42 with iReg := 0x202 } 0xF155) (fun t =>
      t.pc == 0x202 && decode (fetchWord t) == .addImm 0 0x42) = true := by decide

/-! ### Display -/

/-- V-D1. -/
theorem test_clear_screen :
    gives (run { launch with fb := Screen.blank.setCell 5 5 true } 0x00E0) (fun t =>
      !t.pixel 5 5 && !t.pixel 63 31 && t.pc == 0x202) = true := by decide
/-- W8: glyph 0, its cells and its notifications in order. -/
theorem test_draw_glyph_zero :
    gives (run launch 0xD005) (fun t =>
      t.events == ([(0, 0), (1, 0), (2, 0), (3, 0), (0, 1), (3, 1), (0, 2), (3, 2), (0, 3), (3, 3),
        (0, 4), (1, 4), (2, 4), (3, 4)] : List (Fin 64 × Fin 32)).map (fun c => .notify c.1 c.2 true) &&
      lit [(0, 0), (3, 1), (0, 2), (3, 3), (2, 4)] t && !t.pixel 1 1 && !t.pixel 4 0 &&
      t.pc == 0x202) = true := by decide
/-- V-D5, V-D6, V-D7, V-D10, V-D11, V-D9, V-D8: wrap and clip, the rows read, VF, the range check. -/
theorem test_draw_corners :
    gives (run { regs01 0x7C 0x21 with iReg := 0x300, mem := [(0x300, 0x81)] } 0xD011) (fun t =>
      t.events == [.notify 60 1 true] && t.pixel 60 1 && !t.pixel 3 1) = true ∧
    gives (run (regs01 62 31) 0xD015) (fun t =>
      t.events == [.notify 62 31 true, .notify 63 31 true]) = true ∧
    gives (run { launch with iReg := 0xFFFF } 0xD000) (fun t =>
      t.status == .running && t.events == []) = true ∧
    gives (run { regs01 0 31 with iReg := 0xFFE, mem := [(0xFFE, 0x80), (0xFFF, 0xFF)] } 0xD015)
      (fun t => t.events == [.notify 0 31 true] && t.status == .running) = true ∧
    gives (run { launch.setV 15 0x5A with fb := Screen.blank.setCell 0 0 true } 0xD005)
      (fun t => t.getV 15 == 0x5A && !t.pixel 0 0) = true ∧
    fails { regs01 0 30 with iReg := 0xFFE } 0xD015 (.memoryOutOfRange 0xD015 0x1000) = true ∧
    fails { launch with iReg := 0xFFE } 0xD015 (.memoryOutOfRange 0xD015 0x1000) = true := by decide

/-! ### Control flow -/

/-- W6. -/
theorem test_jump :
    gives (run (atPc 0x208 launch) 0x1204) (fun t => t.pc == 0x204) = true ∧
    gives (run launch 0x1000) (fun t => t.pc == 0x000) = true := by decide
/-- V-C1. -/
theorem test_call :
    gives (run (atPc 0x204 launch) 0x2210) (fun t => t.pc == 0x210 && t.stack == [0x204]) = true := by
  decide
/-- V-C4. -/
theorem test_call_overflow :
    fails { launch with stackLimit := .finite 1 (by decide), stack := [0x204] } 0x2300 (.stackOverflow 0x2300) = true := by
  decide
/-- V-C2, P6: the entry pushed last is popped first. -/
theorem test_return :
    gives (run { atPc 0x212 launch with stack := [0x204] } 0x00EE) (fun t =>
      t.pc == 0x206 && t.stack == []) = true ∧
    gives (run { atPc 0x20A launch with stack := [0x206, 0x200] } 0x00EE) (fun t =>
      t.pc == 0x208 && t.stack == [0x200]) = true := by decide
/-- W10. -/
theorem test_return_empty : fails launch 0x00EE (.emptyStack 0x00EE) = true := by decide
/-- V-C6, V-C7. -/
theorem test_skip_eq :
    gives (run (atPc 0x206 launch) 0x3100) (fun t => t.pc == 0x20A) = true ∧
    gives (run (regs01 0 1) 0x3100) (fun t => t.pc == 0x202) = true := by decide
/-- V-C8, and its converse. -/
theorem test_skip_ne :
    gives (run (atPc 0x300 (launch.setV 2 5)) 0x4205) (fun t => t.pc == 0x302) = true ∧
    gives (run launch 0x4205) (fun t => t.pc == 0x204) = true := by decide
/-- V-C9, and its converse. -/
theorem test_skip_eq_reg :
    gives (run (atPc 0x206 (regs01 5 5)) 0x5010) (fun t => t.pc == 0x20A) = true ∧
    gives (run (regs01 5 6) 0x5010) (fun t => t.pc == 0x202) = true := by decide
/-- V-C10, and two registers that differ. -/
theorem test_skip_ne_reg :
    gives (run (launch.setV 3 7) 0x9330) (fun t => t.pc == 0x202) = true ∧
    gives (run (regs01 5 6) 0x9010) (fun t => t.pc == 0x204) = true := by decide
/-- V-C11, V-C12. -/
theorem test_jump_add :
    gives (run (regs01 0xFF 0) 0xBFFF) (fun t => t.pc == 0x10FE && t.status == .running) = true ∧
    gives (run (regs01 0x04 0x10) 0xB300) (fun t => t.pc == 0x304) = true := by decide

/-! ### Registers and ALU -/

/-- V-A1. -/
theorem test_load_imm : gives (run launch 0x6312) (fun t => t.getV 3 == 0x12 && t.pc == 0x202) = true := by
  decide
/-- V-A2, V-A3: no flag, even where VF is the register. -/
theorem test_add_imm :
    gives (run (regs01 1 0) 0x70FF) (fun t => t.getV 0 == 0 && t.getV 15 == 0) = true ∧
    gives (run (launch.setV 15 2) 0x7FFF) (fun t => t.getV 15 == 1) = true := by decide
/-- V-A4. -/
theorem test_move : gives (run (regs01 0 0x7A) 0x8010) (fun t => t.getV 0 == 0x7A) = true := by decide
/-- V-A5: VF is not reset. -/
theorem test_or :
    gives (run ((regs01 0x0F 0xF0).setV 15 0x33) 0x8011) (fun t =>
      t.getV 0 == 0xFF && t.getV 15 == 0x33) = true := by decide
/-- V-A6. -/
theorem test_and : gives (run (regs01 0x3C 0x0F) 0x8012) (fun t => t.getV 0 == 0x0C) = true := by decide
/-- V-A7. -/
theorem test_xor : gives (run (regs01 0x5A 0) 0x8003) (fun t => t.getV 0 == 0) = true := by decide
/-- W2: VF is the sum. -/
theorem test_add :
    gives (run (regs01 0xC8 0x64) 0x8014) (fun t => t.getV 0 == 0x2C && t.getV 15 == 0x2C) = true := by
  decide
/-- V-A9, V-A10. -/
theorem test_add_vf :
    gives (run ((regs01 0 0x90).setV 15 0x80) 0x8F14) (fun t =>
      t.getV 15 == 0x10 && t.getV 1 == 0x90) = true ∧
    gives (run ((regs01 0 0x90).setV 15 0x80) 0x81F4) (fun t =>
      t.getV 15 == 0x10 && t.getV 1 == 0x10) = true := by decide
/-- W3: above, below and equal. -/
theorem test_sub :
    gives (run (regs01 5 3) 0x8015) (fun t => t.getV 0 == 2 && t.getV 15 == 1) = true ∧
    gives (run (regs01 3 5) 0x8015) (fun t => t.getV 0 == 0xFE && t.getV 15 == 0) = true ∧
    gives (run (regs01 5 5) 0x8015) (fun t => t.getV 0 == 0 && t.getV 15 == 0) = true := by decide
/-- V-A11, V-A12, V-A13. -/
theorem test_subn :
    gives (run (regs01 5 5) 0x8017) (fun t => t.getV 0 == 0 && t.getV 15 == 0) = true ∧
    gives (run (regs01 5 3) 0x8017) (fun t => t.getV 0 == 0xFE && t.getV 15 == 0) = true ∧
    gives (run (regs01 3 5) 0x8017) (fun t => t.getV 0 == 2 && t.getV 15 == 1) = true := by decide
/-- V-A14: the y field is ignored. -/
theorem test_shr :
    gives (run ((regs01 0xFF 0).setV 14 0x12) 0x80E6) (fun t =>
      t.getV 0 == 0x7F && t.getV 15 == 1 && t.getV 14 == 0x12) = true := by decide
/-- V-A17, V-A16: the flag is 0x80 or 0x00. -/
theorem test_shl :
    gives (run (launch.setV 3 0x81) 0x830E) (fun t => t.getV 3 == 2 && t.getV 15 == 0x80) = true ∧
    gives (run (regs01 0x7F 0) 0x800E) (fun t => t.getV 0 == 0xFE && t.getV 15 == 0) = true := by decide
/-- V-A19, V-A20. -/
theorem test_rand :
    gives (run { launch with randomBytes := [0xA7] } 0xC40F) (fun t =>
      t.getV 4 == 0x07 && t.events == [.randomRequest 0xA7] && t.randomBytes == []) = true ∧
    gives (run { launch with randomBytes := [0xA7] } 0xC400) (fun t =>
      t.getV 4 == 0x00 && t.events == [.randomRequest 0xA7]) = true := by decide

/-- VF after an opcode under each value of FLAG_ALIAS: sequential, snapshot_listed, flag_last. -/
def flagsOf (s : State) (opcode : Nat) (vs : Byte × Byte × Byte) : Bool :=
  gives (run { s with flagAlias := .sequential } opcode) (fun t => t.getV 15 == vs.1) &&
  gives (run { s with flagAlias := .snapshotListed } opcode) (fun t => t.getV 15 == vs.2.1) &&
  gives (run { s with flagAlias := .flagLast } opcode) (fun t => t.getV 15 == vs.2.2)

/-- V0 after an opcode under each value of FLAG_ALIAS. -/
def resultsOf (s : State) (opcode : Nat) (vs : Byte × Byte × Byte) : Bool :=
  gives (run { s with flagAlias := .sequential } opcode) (fun t => t.getV 0 == vs.1) &&
  gives (run { s with flagAlias := .snapshotListed } opcode) (fun t => t.getV 0 == vs.2.1) &&
  gives (run { s with flagAlias := .flagLast } opcode) (fun t => t.getV 0 == vs.2.2)

/-- V-F1, V-F2, V-F3. -/
theorem test_alias_sub :
    flagsOf ((regs01 0 5).setV 15 0x10) 0x8F15 (0xFC, 0x0B, 0x01) = true ∧
    flagsOf ((regs01 5 0).setV 15 3) 0x80F5 (1, 1, 1) = true ∧
    resultsOf ((regs01 5 0).setV 15 3) 0x80F5 (0x04, 0x02, 0x02) = true ∧
    flagsOf (launch.setV 15 0x42) 0x8FF5 (0, 0, 0) = true := by decide
/-- V-F4. -/
theorem test_alias_shr : flagsOf (launch.setV 15 7) 0x8F06 (0x00, 0x03, 0x01) = true := by decide
/-- V-F5, V-F6, V-F7. -/
theorem test_alias_subn :
    flagsOf ((regs01 0 0x30).setV 15 0x10) 0x8F17 (0x2F, 0x20, 0x01) = true ∧
    flagsOf ((regs01 5 0).setV 15 8) 0x80F7 (1, 1, 1) = true ∧
    resultsOf ((regs01 5 0).setV 15 8) 0x80F7 (0xFC, 0x03, 0x03) = true ∧
    flagsOf (launch.setV 15 0x42) 0x8FF7 (0, 0, 0) = true := by decide
/-- V-F8. -/
theorem test_alias_shl : flagsOf (launch.setV 15 0xC1) 0x8F0E (0x00, 0x82, 0x80) = true := by decide

/-! ### Index register and memory -/

/-- V-M1. -/
theorem test_load_i : gives (run launch 0xA300) (fun t => t.iReg == 0x300) = true := by decide
/-- V-M2, V-M3. -/
theorem test_add_i :
    gives (run { launch.setV 2 3 with iReg := 0xFFE } 0xF21E) (fun t =>
      t.iReg == 0x1001 && t.getV 15 == 0) = true ∧
    gives (run { launch.setV 2 1 with iReg := 0xFFFF } 0xF21E) (fun t => t.iReg == 0) = true := by decide
/-- V-M5. -/
theorem test_sprite_digit : gives (run (regs01 9 0) 0xF029) (fun t => t.iReg == 0x2D) = true := by decide
/-- V-M6. -/
theorem test_sprite_digit_out_of_range :
    fails { regs01 0x0A 0 with iReg := 0x123 } 0xF029 (.spriteDigitOutOfRange 0xF029 0x0A) = true := by
  decide
/-- V-M8: the last bytes of memory. -/
theorem test_store_bcd :
    gives (run { regs01 0xFF 0 with iReg := 0xFFD } 0xF033) (fun t =>
      t.mem.read 0xFFD == 2 && t.mem.read 0xFFE == 5 && t.mem.read 0xFFF == 5 && t.iReg == 0xFFD) =
      true := by decide
/-- V-M10. -/
theorem test_store_bcd_out_of_range :
    fails { launch with iReg := 0xFFE } 0xF033 (.memoryOutOfRange 0xF033 0x1000) = true := by decide
/-- V-M11; V-M16 for a byte of the font. -/
theorem test_store_registers :
    gives (run { regs01 0x11 0x22 with iReg := 0x400 } 0xF155) (fun t =>
      t.mem.read 0x400 == 0x11 && t.mem.read 0x401 == 0x22 && t.mem.read 0x402 == 0 &&
      t.iReg == 0x400) = true ∧
    gives (run (regs01 0xAA 0) 0xF055) (fun t => t.mem.read 0 == 0xAA && t.mem.read 1 == 0x90) = true := by
  decide
/-- V-M13. -/
theorem test_store_registers_out_of_range :
    fails { launch with iReg := 0xFF1 } 0xFF55 (.memoryOutOfRange 0xFF55 0x1000) = true := by decide
/-- V-M14: the register after the last is kept. -/
theorem test_read_registers :
    gives (run { launch.setV 3 0x77 with iReg := 0x300, mem := [(0x300, 2), (0x301, 5), (0x302, 4), (0x303, 9)] }
      0xF265) (fun t => t.getV 0 == 2 && t.getV 1 == 5 && t.getV 2 == 4 && t.getV 3 == 0x77 &&
      t.iReg == 0x300) = true := by decide
/-- V-M15. -/
theorem test_read_registers_out_of_range :
    fails { launch with iReg := 0x1001 } 0xF065 (.memoryOutOfRange 0xF065 0x1001) = true := by decide

/-! ### Keypad and timers -/

/-- W11. -/
theorem test_remap :
    remap 0 = some 13 ∧ remap 1 = some 0 ∧ remap 12 = some 3 ∧ remap 15 = some 15 ∧ remap 16 = none := by
  decide
/-- V-K1. -/
theorem test_skip_pressed :
    gives (run { atPc 0x220 (launch.setV 5 1) with keyAnswers := [true] } 0xE59E) (fun t =>
      t.events == [.keyQuery 0 true] && t.pc == 0x224) = true := by decide
/-- V-K4: no query. -/
theorem test_skip_pressed_out_of_range :
    fails (regs01 0x10 0) 0xE09E (.keyIndexOutOfRange 0xE09E 0x10) = true := by decide
/-- V-K2, V-K3. -/
theorem test_skip_not_pressed :
    gives (run { atPc 0x220 launch with keyAnswers := [false] } 0xE5A1) (fun t =>
      t.events == [.keyQuery 13 false] && t.pc == 0x224) = true ∧
    gives (run { launch.setV 5 0x0C with keyAnswers := [true] } 0xE5A1) (fun t =>
      t.events == [.keyQuery 3 true] && t.pc == 0x202) = true := by decide
/-- V-K6, V-K7. -/
theorem test_wait_key :
    gives (run { atPc 0x20C (launch.setV 2 1) with keyAnswers := [false] } 0xF20A) (fun t =>
      t.events == [.keyQuery 0 false] && t.pc == 0x20C && t.getV 2 == 1) = true ∧
    gives (run { atPc 0x20C (launch.setV 2 1) with keyAnswers := [true] } 0xF20A) (fun t =>
      t.events == [.keyQuery 0 true] && t.pc == 0x20E && t.getV 2 == 1) = true := by decide
/-- V-K5. -/
theorem test_wait_key_out_of_range :
    fails (regs01 0xFF 0) 0xF00A (.keyIndexOutOfRange 0xF00A 0xFF) = true := by decide
/-- V-K8. -/
theorem test_read_delay :
    gives (run { launch with dt := 5 } 0xF107) (fun t => t.getV 1 == 5 && t.dt == 5) = true := by decide
/-- V-K9. -/
theorem test_set_delay :
    gives (run (regs01 5 0) 0xF015) (fun t => t.dt == 5 && t.st == 0) = true := by decide
/-- V-K10. -/
theorem test_set_sound :
    gives (run (launch.setV 3 0x10) 0xF318) (fun t => t.st == 0x10 && t.dt == 0) = true := by decide
/-- V-T1, V-T3. -/
theorem test_tick :
    gives (step { launch with dt := 5, calls := [.tick] }) (fun t => t.dt == 4 && t.st == 0) = true ∧
    gives (step { launch with dt := 1, st := 0xFF, calls := [.tick] }) (fun t =>
      t.dt == 0 && t.st == 0xFE && t.calls == []) = true := by decide

/-! ### Reset and memory -/

/-- 10_state.md R32, 20_memory.md R68. -/
theorem test_reset :
    State.reset.pc = 0x200 ∧ State.reset.status = .running ∧ State.reset.mem.read 0 = 0xF0 ∧
    State.reset.mem.wf = true := by decide
/-- Storing what an unlisted address reads as removes the entry. -/
theorem test_memory_canonical :
    Memory.write [(0x300, 5)] 0x300 0 = [] ∧ Memory.write [] 0 0xF0 = [] ∧
    Memory.write [(0x300, 5)] 0x2FF 1 = [(0x2FF, 1), (0x300, 5)] := by decide
/-- 20_memory.md R61: the lowest address out of range. -/
theorem test_range_check :
    firstOutOfRange 0xFFE 2 = none ∧ firstOutOfRange 0xFFE 3 = some 0x1000 ∧
    firstOutOfRange 0x1001 1 = some 0x1001 ∧ firstOutOfRange 0xFFFF 0 = none := by decide

/-! ### Witnesses: for each statement with hypotheses, states and operands that meet them -/

/-- The launch state with an opcode where the next step fetches. -/
def ready (s : State) (opcode : Nat) : State := s.withFetchWord 16 opcode

/-- DecodeReadsBackEncode. -/
theorem test_meets_well_formed :
    wellFormed (.draw 15 15 15) = true ∧ wellFormed (.unrecognized 0xFFFF) = true := by decide

/-- WordsDecodeByTheirRow, first clause: a row and a word of it. -/
theorem test_meets_row :
    (∀ w, Instr.shl 15 0 ≠ .unrecognized w) ∧
    0x8F0E#16 &&& rowMask (.shl 15 0) = rowBits (.shl 15 0) := by
  refine ⟨fun w h => ?_, by decide⟩
  cases h

/-- WordsDecodeByTheirRow, second clause: a word of no row. -/
theorem test_meets_no_row :
    ∀ i : Instr, (∀ w, i ≠ .unrecognized w) → 0xFFFF#16 &&& rowMask i ≠ rowBits i := by
  intro i h
  cases i <;> first
    | (simp only [rowMask, rowBits]; decide)
    | exact absurd rfl (h _)

/-- StepRunsTheDecodedInstruction, first clause at the last pc it covers: an instruction that
completes, and one that is fatal. -/
theorem test_meets_step :
    (ready (atPc 0xFFE launch) 0x602A).status = .running ∧
    (ready (atPc 0xFFE launch) 0x602A).nextCall = .step ∧
    (0x602A#16).toNat = 256 * ((ready (atPc 0xFFE launch) 0x602A).mem.read 0xFFE).toNat +
      ((ready (atPc 0xFFE launch) 0x602A).mem.read 0xFFF).toNat ∧
    gives (exec (decode 0x602A) (ready (atPc 0xFFE launch) 0x602A).beginCall)
      (fun t => t.status == .running) = true ∧
    gives (exec (decode 0x00EE) (ready (atPc 0xFFE launch) 0x00EE).beginCall)
      (fun t => t.status == .halted (.emptyStack 0x00EE)) = true := by decide

/-- StepRunsTheDecodedInstruction, second clause at the first pc it covers: the word over two
addresses, one of them outside memory. -/
theorem test_meets_fetch_out_of_range :
    (atPc 0xFFF launch).status = .running ∧ (atPc 0xFFF launch).nextCall = .step ∧
    (atPc 0xFFF launch).pc.toNat + 1 > 0xFFF ∧
    (0#16).toNat = 256 * ((atPc 0xFFF launch).mem.read 0xFFF).toNat +
      ((atPc 0xFFF launch).mem.read 0x1000).toNat := by decide

/-- HaltedCoreRefusesEveryCall. -/
theorem test_meets_halted :
    (launch.haltedBy (.emptyStack 0x00EE)).status = .halted (.emptyStack 0x00EE) := by decide

/-- UnrecognizedIsFatal. -/
theorem test_meets_unrecognized :
    illegalWord 0x8008 = true ∧ (ready launch 0x8008).status = .running ∧
    (ready launch 0x8008).nextCall = .step ∧ (ready launch 0x8008).pc.toNat + 1 ≤ 0xFFF ∧
    fetchWord (ready launch 0x8008) = 0x8008 := by decide

/-- FatalChangesOnlyTheStatus, OneKindOfFatalPerInstruction: an instruction, and a step, that end
in a fatal error. -/
theorem test_meets_fatal :
    launch.status = .running ∧
    exec .ret launch = .next (launch.haltedBy (.emptyStack 0x00EE)) ∧
    step (atPc 0xFFF launch) =
      .next ((atPc 0xFFF launch).beginCall.haltedBy (.fetchOutOfRange 0xFFF)) :=
  ⟨rfl, rfl, rfl⟩

/-- RunningCoreAlwaysMoves: a step, a tick and a load in time. -/
theorem test_meets_running :
    launch.status = .running ∧ (∀ image, launch.nextCall = .load image → launch.awaitingImage = true) ∧
    (∀ image, ({ launch with calls := [.tick], awaitingImage := false } : State).nextCall = .load image →
      ({ launch with calls := [.tick], awaitingImage := false } : State).awaitingImage = true) ∧
    ({ launch with calls := [.load [1]] } : State).awaitingImage = true := by
  refine ⟨rfl, fun _ _ => rfl, fun image h => ?_, rfl⟩
  cases h

/-- CallPushesItsOwnAddress: room without a limit, the last room under a limit, and none. -/
theorem test_meets_call :
    launch.stackLimit.depth ≠ some launch.stack.length ∧
    ({ launch with stackLimit := .finite 2 (by decide), stack := [0x204] } : State).stackLimit.depth ≠ some 1 ∧
    ({ launch with stackLimit := .finite 1 (by decide), stack := [0x204] } : State).stackLimit.depth = some 1 := by decide

/-- FirstCallAlwaysHasRoom: an empty stack under the least limit. -/
theorem test_meets_first_call :
    ({ launch with stackLimit := .finite 1 (by decide) } : State).stack = [] ∧
    gives (exec (.call 0x300) { launch with stackLimit := .finite 1 (by decide) })
      (fun t => t.stack == [0x200]) = true := by decide

/-- ReturnPopsIntoPc: an entry at the top, and none. -/
theorem test_meets_return :
    ({ launch with stack := [0x206, 0x200] } : State).stack = 0x206 :: [0x200] ∧ launch.stack = [] := by
  decide

/-- ReturnResumesAfterTheCall: the Call and the Return both complete. -/
theorem test_meets_call_return :
    launch.stackLimit.depth ≠ some launch.stack.length ∧
    gives (exec (.call 0x300) launch) (fun t => gives (exec .ret { t with pc := 0x123 })
      fun u => u.status == .running) = true := by decide

/-- SubWritesFlagAndDifference, SubnWritesFlagAndDifference, ShrWritesBitZeroAndHalf,
ShlWritesBitSevenAndDouble: registers for each clause. -/
theorem test_meets_flag_clauses :
    ((14 : Reg) ≠ 15 ∧ (0 : Reg) ≠ 15) ∧ ((15 : Reg) = 15 ∧ (14 : Reg) ≠ 15) ∧
    ((14 : Reg) = 14 ∧ (14 : Reg) ≠ 15) := by decide

/-- FlagAliasMattersOnlyForVF. -/
theorem test_meets_flag_alias :
    Instr.shl 14 0 ∈ [Instr.sub 14 0, .shr 14 0, .subn 14 0, .shl 14 0] ∧ (14 : Reg) ≠ 15 ∧
    (0 : Reg) ≠ 15 ∧ gives (exec (.shl 14 0) launch) (fun t => t.status == .running) = true := by decide

/-- RandMasksOneRandomByte: a given answer. -/
theorem test_meets_random_answer :
    ({ launch with randomBytes := [0xA7] } : State).randomBytes = 0xA7 :: [] := by decide

/-- SpriteDigitPointsAtItsGlyph: the last digit, and the first value that is none. -/
theorem test_meets_sprite_digit :
    ((regs01 9 0).getV 0).toNat ≤ 9 ∧ ((regs01 10 0).getV 0).toNat > 9 := by decide

/-- StoreBCDWritesThreeDigits: the last I in range and the first out of it. -/
theorem test_meets_store_bcd :
    launch.mem.wf = true ∧ ({ launch with iReg := 0xFFD } : State).iReg.toNat + 2 ≤ 0xFFF ∧
    ({ launch with iReg := 0xFFE } : State).iReg.toNat + 2 > 0xFFF := by decide

/-- StoreRegistersWritesV0ToVx, ReadRegistersLoadsV0ToVx: the last I in range and the first out of
it, for V0-VF and for V0 alone. -/
theorem test_meets_registers_in_range :
    launch.mem.wf = true ∧ ({ launch with iReg := 0xFF0 } : State).iReg.toNat + (15 : Reg).val ≤ 0xFFF ∧
    ({ launch with iReg := 0xFF1 } : State).iReg.toNat + (15 : Reg).val > 0xFFF ∧
    ({ launch with iReg := 0xFFF } : State).iReg.toNat + (0 : Reg).val ≤ 0xFFF ∧
    ({ launch with iReg := 0x1000 } : State).iReg.toNat + (0 : Reg).val > 0xFFF := by decide

/-- RemapIsThePermutation: the first value above 15. -/
theorem test_meets_remap : (16#8).toNat > 15 := by decide

/-- KeySkipsQueryOnce, WaitKeyRewindsWhileReleased: the last key with a given answer, and the first
value that is none. -/
theorem test_meets_key :
    remap ((regs01 15 0).getV 0) = some 15 ∧ ((regs01 16 0).getV 0).toNat > 15 ∧
    ({ regs01 15 0 with keyAnswers := [true] } : State).keyAnswers = true :: [] := by decide

/-- WaitKeyRepeatsItself. -/
theorem test_meets_wait_key_repeats :
    let s : State := ready { launch with keyAnswers := [false, true] } 0xF00A
    s.status = .running ∧ s.nextCall = .step ∧ s.pc.toNat + 1 ≤ 0xFFF ∧
    decode (fetchWord s) = .waitKey 0 ∧ remap (s.getV 0) = some 13 ∧
    s.keyAnswers = false :: [true] := by decide

/-- PixelWriteTogglesOrClears: outside by the column, outside by the row, and the last cell. -/
theorem test_meets_pixel_write :
    (64 ≥ 64 ∨ 0 ≥ 32) ∧ (0 ≥ 64 ∨ 32 ≥ 32) ∧ (63 : Fin 64).val = 63 ∧ (31 : Fin 32).val = 31 := by
  decide

/-- DrawTogglesTheSprite, first clause: V-D10, the last rows that lie in memory. -/
theorem test_meets_draw :
    let s : State := { regs01 0 31 with iReg := 0xFFE }
    ∀ row, row < (5 : Fin 16).val → (s.getV 1).toNat % 32 + row ≤ 32 → s.addressOf row ≤ 0xFFF := by
  intro s row _ h
  have h1 : s.getV 1 = 31 := by decide
  have h2 : s.addressOf row = 0xFFE + row := rfl
  rw [h1] at h
  rw [h2]
  change 31 + row ≤ 32 at h
  omega

/-- DrawTogglesTheSprite, second clause: V-D9, row 2 at the first address out of memory. -/
theorem test_meets_draw_out_of_range :
    let s : State := { regs01 0 30 with iReg := 0xFFE }
    2 < (5 : Fin 16).val ∧ (s.getV 1).toNat % 32 + 2 ≤ 32 ∧ s.addressOf 2 > 0xFFF ∧
    ∀ r, r < 2 → s.addressOf r ≤ 0xFFF := by decide

/-- DrawTwiceRestores: both Draws complete, and the first of them lights a cell. -/
theorem test_meets_draw_twice :
    gives (exec (.draw 0 0 5) launch) (fun t => t.pixel 0 0 &&
      gives (exec (.draw 0 0 5) t) fun u => u.status == .running) = true := by decide

/-- TickCountsBothTimersDown; StepsNeverCountTimersDown for a SetDelay. -/
theorem test_meets_tick_and_step :
    ({ launch with calls := [.tick] } : State).status = .running ∧
    ({ launch with calls := [.tick] } : State).nextCall = .tick ∧
    (ready (regs01 5 0) 0xF015).nextCall = .step ∧
    gives (step (ready (regs01 5 0) 0xF015)) (fun t => t.dt == 5) = true := by decide

/-- ConstructionHoldsItsParameters: the ends of each range of addresses. -/
theorem test_meets_construction :
    (0 < 5 ∧ 4 < 5) ∧ (5 ≤ 5 ∧ 79 < 80) ∧ (80 ≤ 80 ∧ 0xFFF ≤ 0xFFF) := by decide

/-- ImageLoadPlacesTheImage: a load in time of an image that is cut, its last byte, and a late
load. -/
theorem test_meets_image_load :
    ({ launch with calls := [.load (List.replicate 3585 1)] } : State).nextCall =
      .load (List.replicate 3585 1) ∧
    launch.mem.wf = true ∧ launch.status = .running ∧ launch.awaitingImage = true ∧
    3583 < min (List.replicate 3585 (1 : Byte)).length 3584 ∧
    ({ launch with calls := [.load []], awaitingImage := false } : State).nextCall = .load [] ∧
    ({ launch with calls := [.load []], awaitingImage := false } : State).awaitingImage = false := by
  refine ⟨rfl, rfl, rfl, rfl, ?_, rfl, rfl⟩
  rw [List.length_replicate]
  decide

/-- TransactionsTakeCallsInOrder. -/
theorem test_meets_transaction :
    gives (step { launch with calls := [.tick, .step] }) (fun t => t.calls == [.step]) = true := by decide

/-- A state whose stack holds as many entries as its limit, a Return at pc. -/
def fullStack : State :=
  { launch with stackLimit := .finite 1 (by decide), stack := [0xFFE], mem := [(0x201, 0xEE)] }

/-- EveryTransactionKeepsTheInvariant: a state with a full stack that meets it, and moves. -/
theorem test_meets_invariant :
    Inv fullStack ∧ gives (step fullStack) (fun t => t.pc == 0x1000) = true := by
  refine ⟨⟨by decide, ?_, ?_, ?_⟩, by decide⟩
  · intro limit h
    cases h
    exact Nat.le_refl 1
  · intro e he
    rw [List.mem_singleton.1 he]
    decide
  · intro f h
    cases h

/-- EveryTransactionKeepsTheSinkInStep: a lit cell that its notification explains, and a Draw that
clears it. -/
theorem test_meets_sink :
    let s : State := { ready launch 0xD001 with
      fb := Screen.blank.setCell 0 0 true, events := [.notify 0 0 true] }
    SinkMirrors s ∧ gives (step s) (fun t => !t.pixel 0 0) = true :=
  ⟨rfl, by decide⟩

/-- EachInstructionWritesOnlyItsParts, EachInstructionMakesItsCalls: an instruction that completes,
and a register it does not write. -/
theorem test_meets_each_instruction :
    launch.status = .running ∧ regsWritten (.readRegisters 3) 4 = false ∧
    gives (exec (.readRegisters 3) launch) (fun t => t.status == .running) = true := by decide

/-- NoInstructionReadsTheSoundTimer. -/
theorem test_meets_sound :
    (∀ x, Instr.readDelay 0 ≠ .setSound x) ∧
    gives (exec (.readDelay 0) launch) (fun t => t.status == .running) = true := by
  refine ⟨fun x h => ?_, by decide⟩
  cases h

end Sys2Proof.Tests
end

section
/-! PROOFS. The parameters of 00_scope.md R7: the least STACK_LIMIT leaves room for the first Call. -/

namespace Sys2Proof.Machine

/-- The advance undoes the compensating offset, modulo 65536 (40_execution_cycle.md R135). -/
@[simp] theorem State.aim_pc_add_two (s : State) (target : Word) :
    (s.aim target).pc + 2 = target := by
  rw [State.aim_pc, BitVec.sub_add_cancel]

/-- An instruction's 12-bit address is itself as a word. -/
theorem zext16_toNat (nnn : Addr12) : (zext16 nnn).toNat = nnn.toNat :=
  BitVec.toNat_setWidth_of_le (by decide)

/-- A Call with room pushes its own address and aims at its operand (42_control_flow.md R162). -/
theorem exec_call_of_room (nnn : Addr12) {s : State} (h : s.stackFull = false) :
    exec (.call nnn) s = .next ({ s with stack := s.pc :: s.stack }.aim (zext16 nnn)) := by
  change execCall nnn s = _
  unfold execCall
  rw [h, if_neg Bool.false_ne_true]

/-- Settles O54: an empty stack is not full, so the Call pushes onto it. -/
theorem firstCallAlwaysHasRoom : Obligations.FirstCallAlwaysHasRoom := by
  intro nnn s hempty
  refine ⟨_, exec_call_of_room nnn (stackFull_empty hempty), ?_, rfl, ?_⟩
  · rw [State.aim_stack, hempty]
  · rw [State.aim_pc_add_two, zext16_toNat]

end Sys2Proof.Machine
end

section
/-! PROOFS. What one instruction can do, and which parts it leaves alone (10_state.md R21-R29, 40_execution_cycle.md R137). -/

namespace Sys2Proof.Machine

/-! ### The outcomes of a checked operation -/

/-- An outcome is one next state at most. -/
theorem next_unique {o : Host.Outcome State Fault Refusal} {t u : State} (ht : o = .next t)
    (hu : o = .next u) : t = u :=
  Host.Outcome.next.inj (ht.symm.trans hu)

/-- A range-checked effect is fatal at the lowest bad address, or it happens. -/
theorem guardRange_cases {raw : Word} {count : Nat} {effect : State → State} {s t : State}
    (h : guardRange raw count effect s = .next t) :
    (∃ a, firstOutOfRange s.iReg.toNat count = some a ∧
      t = s.haltedBy (.memoryOutOfRange raw a)) ∨
    firstOutOfRange s.iReg.toNat count = none ∧ t = effect s := by
  unfold guardRange at h
  split at h
  · next a ha => exact .inl ⟨a, ha, (Host.Outcome.next.inj h).symm⟩
  · next hn => exact .inr ⟨hn, (Host.Outcome.next.inj h).symm⟩

/-- An effect on the key in V[x] is fatal when V[x] is no key, or it happens. -/
theorem withKey_cases {raw : Word} {x : Reg} {effect : Fin 16 → State → State} {s t : State}
    (h : withKey raw x effect s = .next t) :
    (remap (s.getV x) = none ∧ t = s.haltedBy (.keyIndexOutOfRange raw (s.getV x))) ∨
    ∃ k, remap (s.getV x) = some k ∧ t = effect k s := by
  unfold withKey at h
  split at h
  · next hn => exact .inl ⟨hn, (Host.Outcome.next.inj h).symm⟩
  · next k hk => exact .inr ⟨k, hk, (Host.Outcome.next.inj h).symm⟩

/-- A Return from an empty stack is fatal (42_control_flow.md R160). -/
theorem exec_ret_of_nil {s : State} (h : s.stack = []) :
    exec .ret s = .next (s.haltedBy (.emptyStack (encode .ret))) := by
  change execRet s = _
  unfold execRet
  rw [h]
  rfl

/-- A Return pops the newest entry into the pc (42_control_flow.md R160). -/
theorem exec_ret_of_cons {s : State} {entry : Word} {rest : List Word}
    (h : s.stack = entry :: rest) :
    exec .ret s = .next { s with stack := rest, pc := entry } := by
  change execRet s = _
  unfold execRet
  rw [h]

/-- A Call on a full stack is fatal (42_control_flow.md R162). -/
theorem exec_call_of_full (nnn : Addr12) {s : State} (h : s.stackFull = true) :
    exec (.call nnn) s = .next (s.haltedBy (.stackOverflow (encode (.call nnn)))) := by
  change execCall nnn s = _
  unfold execCall
  rw [if_pos h]
  rfl

/-- A SpriteDigit of more than 9 is fatal (44_index_memory.md R202). -/
theorem exec_spriteDigit_of_gt {x : Reg} {s : State} (h : s.getV x > 9) :
    exec (.spriteDigit x) s =
      .next (s.haltedBy (.spriteDigitOutOfRange (encode (.spriteDigit x)) (s.getV x))) := by
  change execSpriteDigit x s = _
  unfold execSpriteDigit
  rw [if_pos h]
  rfl

/-- A SpriteDigit of at most 9 points I at the digit's glyph (44_index_memory.md R202). -/
theorem exec_spriteDigit_of_le {x : Reg} {s : State} (h : ¬ s.getV x > 9) :
    exec (.spriteDigit x) s = .next { s with iReg := 5 * (s.getV x).setWidth 16 } := by
  change execSpriteDigit x s = _
  unfold execSpriteDigit
  rw [if_neg h]

/-! ### The frame of an instruction -/

/-- The state that has the listed parts of `t` and every other part of `s`. -/
def State.withPartsOf (s : State) (parts : List Part) (t : State) : State where
  v := if .regs ∈ parts then t.v else s.v
  iReg := if .index ∈ parts then t.iReg else s.iReg
  pc := if .pc ∈ parts then t.pc else s.pc
  stack := if .stack ∈ parts then t.stack else s.stack
  dt := if .delay ∈ parts then t.dt else s.dt
  st := if .sound ∈ parts then t.st else s.st
  fb := if .screen ∈ parts then t.fb else s.fb
  mem := if .memory ∈ parts then t.mem else s.mem
  status := if .status ∈ parts then t.status else s.status
  flagAlias := if .flagAlias ∈ parts then t.flagAlias else s.flagAlias
  stackLimit := if .stackLimit ∈ parts then t.stackLimit else s.stackLimit
  calls := if .calls ∈ parts then t.calls else s.calls
  keyAnswers := if .keyAnswers ∈ parts then t.keyAnswers else s.keyAnswers
  randomBytes := if .randomBytes ∈ parts then t.randomBytes else s.randomBytes
  awaitingImage := if .awaitingImage ∈ parts then t.awaitingImage else s.awaitingImage
  events := if .events ∈ parts then t.events else s.events
  freeCount := if .freeCount ∈ parts then t.freeCount else s.freeCount

/-- The parts not taken from `t` read as in `s`. -/
theorem keepsAllBut_withPartsOf (parts : List Part) (s t : State) :
    KeepsAllBut parts s (s.withPartsOf parts t) := by
  intro p hp
  cases p <;> simp [Keeps, State.withPartsOf, State.getV, State.pixel, hp]

theorem keepsAllBut_of_eq_withPartsOf {parts : List Part} {s t : State}
    (h : t = s.withPartsOf parts t) : KeepsAllBut parts s t := by
  rw [h]
  exact keepsAllBut_withPartsOf parts s t

/-- A Draw's rows change the framebuffer and the events only. -/
theorem drawRows_frame (px py count : Nat) (s : State) :
    drawRows px py count s =
      s.withPartsOf [.screen, .events] (drawRows px py count s) := by
  rw [drawRows_eq_toggles]
  exact toggles_frame _ s

/-- A query, whatever pc it then leads to, changes the pc and what a query uses up and records. -/
theorem keyPressed_frame (k : Fin 16) (s : State) (pc : Word) :
    { (keyPressed k s).2 with pc := pc } =
      s.withPartsOf [.pc, .keyAnswers, .events, .freeCount]
        { (keyPressed k s).2 with pc := pc } := by
  rw [keyPressed_spec]
  rfl

/-- A request, whatever register then takes the byte, changes the registers and what a request uses
up and records. -/
theorem randomByte_frame (s : State) (x : Reg) (b : Byte) :
    (randomByte s).2.setV x b =
      s.withPartsOf [.regs, .randomBytes, .events, .freeCount] ((randomByte s).2.setV x b) := by
  rw [randomByte_spec]
  rfl

/-- An instruction is fatal, or changes only the parts it is listed with. -/
theorem exec_frame {i : Instr} {s t : State} (h : exec i s = .next t) :
    (∃ f, t = s.haltedBy f) ∨ t = s.withPartsOf (partsWritten i) t := by
  cases i with
  | ret =>
    cases hs : s.stack with
    | nil =>
      exact .inl ⟨_, next_unique h (exec_ret_of_nil hs)⟩
    | cons entry rest =>
      obtain rfl := next_unique h (exec_ret_of_cons hs)
      exact .inr rfl
  | call nnn =>
    cases hs : s.stackFull with
    | true =>
      exact .inl ⟨_, next_unique h (exec_call_of_full nnn hs)⟩
    | false =>
      obtain rfl := next_unique h (exec_call_of_room nnn hs)
      exact .inr rfl
  | spriteDigit x =>
    by_cases hd : s.getV x > 9
    · exact .inl ⟨_, next_unique h (exec_spriteDigit_of_gt hd)⟩
    · obtain rfl := next_unique h (exec_spriteDigit_of_le hd)
      exact .inr rfl
  | sub x y | shr x y | subn x y | shl x y =>
    obtain rfl := Host.Outcome.next.inj h
    exact .inr (writeFlagged_frame _ _ x y s)
  | rand x kk =>
    obtain rfl := Host.Outcome.next.inj h
    exact .inr (randomByte_frame s x _)
  | draw x y n =>
    obtain ⟨a, _, rfl⟩ | ⟨_, rfl⟩ := guardRange_cases h
    · exact .inl ⟨_, rfl⟩
    · exact .inr (drawRows_frame _ _ _ s)
  | storeBCD x | storeRegisters x | readRegisters x =>
    obtain ⟨a, _, rfl⟩ | ⟨_, rfl⟩ := guardRange_cases h
    · exact .inl ⟨_, rfl⟩
    · exact .inr rfl
  | skipPressed x | skipNotPressed x | waitKey x =>
    obtain ⟨_, rfl⟩ | ⟨k, _, rfl⟩ := withKey_cases h
    · exact .inl ⟨_, rfl⟩
    · exact .inr (keyPressed_frame k s _)
  | unrecognized raw => exact .inl ⟨_, (Host.Outcome.next.inj h).symm⟩
  | _ =>
    obtain rfl := Host.Outcome.next.inj h
    exact .inr rfl

/-- A request keeps the registers. -/
theorem randomByte_getV (s : State) (r : Reg) : (randomByte s).2.getV r = s.getV r := by
  rw [randomByte_spec]
  rfl

/-- An instruction keeps every register it is not listed as writing: by its register writes where
`.regs` is among its parts, and by its frame otherwise. -/
theorem exec_getV_of_not_written {i : Instr} {s t : State} {r : Reg} (h : exec i s = .next t)
    (hr : regsWritten i r = false) : t.getV r = s.getV r := by
  cases i with
  | loadImm x _ | addImm x _ | move x _ | or x _ | and x _ | xor x _ | readDelay x =>
    obtain rfl := Host.Outcome.next.inj h
    exact State.getV_setV_ne s _ (ne_of_beq_false hr)
  | add x y =>
    obtain rfl := Host.Outcome.next.inj h
    obtain ⟨hx, hf⟩ := Bool.or_eq_false_iff.1 hr
    exact (State.getV_setV_ne _ _ (ne_of_beq_false hf)).trans
      (State.getV_setV_ne s _ (ne_of_beq_false hx))
  | sub x y | shr x y | subn x y | shl x y =>
    obtain rfl := Host.Outcome.next.inj h
    obtain ⟨hx, hf⟩ := Bool.or_eq_false_iff.1 hr
    exact writeFlagged_other _ _ x y s (ne_of_beq_false hx) (ne_of_beq_false hf)
  | rand x kk =>
    obtain rfl := Host.Outcome.next.inj h
    rw [State.getV_setV_ne _ _ (ne_of_beq_false hr), randomByte_getV]
  | readRegisters x =>
    obtain ⟨a, _, rfl⟩ | ⟨_, rfl⟩ := guardRange_cases h
    · rfl
    · rw [loadRegisters_getV, if_neg (of_decide_eq_false hr)]
  | _ =>
    obtain ⟨f, rfl⟩ | hframe := exec_frame h
    · rfl
    · exact keepsAllBut_of_eq_withPartsOf hframe .regs (by simp [partsWritten]) r

/-- Settles O51: a completed instruction is not fatal, so its frame holds. -/
theorem eachInstructionWritesOnlyItsParts : Obligations.EachInstructionWritesOnlyItsParts := by
  intro i s t _ h ht
  refine ⟨?_, fun r => exec_getV_of_not_written h⟩
  obtain ⟨f, rfl⟩ | hframe := exec_frame h
  · cases ht
  · exact keepsAllBut_of_eq_withPartsOf hframe

end Sys2Proof.Machine
end

section
/-! PROOFS. The pixel sink: what applying the notifications in order does to its screen, for each operation that records events, and over a transaction (10_state.md R27, 60_exceptions.md R310, 41_display.md R150). -/

namespace Sys2Proof.Machine

/-! ### One transaction -/

/-- A step in the status Running is fatal when it cannot fetch, or it executes the fetched
instruction and advances (40_execution_cycle.md R130, 20_memory.md R65). -/
theorem instructionStep_cases {s t : State} (h : instructionStep s = .next t) :
    (s.pc.toNat + 1 > 0xFFF ∧ t = s.haltedBy (.fetchOutOfRange s.pc)) ∨
    ¬ s.pc.toNat + 1 > 0xFFF ∧
      ∃ u, exec (decode (fetchWord s)) s = .next u ∧ t = u.advance := by
  unfold instructionStep at h
  split at h
  · next hpc => exact .inl ⟨hpc, (Host.Outcome.next.inj h).symm⟩
  · next hpc =>
    refine .inr ⟨hpc, ?_⟩
    cases hu : exec (decode (fetchWord s)) s with
    | next u =>
      rw [hu] at h
      exact ⟨u, rfl, (Host.Outcome.next.inj h).symm⟩
    | fault f => cases f
    | refused r =>
      rw [hu] at h
      cases h

/-- A transaction that is not refused starts in the status Running and is an instruction step, a
timer tick, or the image load (60_exceptions.md R314, 70_reset_and_hazards.md R341). -/
theorem step_cases {s t : State} (h : step s = .next t) :
    s.status = .running ∧
      ((s.nextCall = .step ∧ instructionStep s.beginCall = .next t) ∨
       (s.nextCall = .tick ∧ t = tickTimer s.beginCall) ∨
       ∃ image, s.nextCall = .load image ∧ s.awaitingImage = true ∧
         t = loadImage image s.beginCall) := by
  unfold step transact at h
  split at h
  · cases h
  · next hrun =>
    refine ⟨hrun, ?_⟩
    split at h
    · next hcall => exact .inl ⟨hcall, h⟩
    · next hcall => exact .inr (.inl ⟨hcall, (Host.Outcome.next.inj h).symm⟩)
    · next image hcall =>
      split at h
      · next hawait => exact .inr (.inr ⟨image, hcall, hawait, (Host.Outcome.next.inj h).symm⟩)
      · cases h

@[simp] theorem State.advance_fb (s : State) : s.advance.fb = s.fb := by
  unfold State.advance
  split <;> rfl

@[simp] theorem State.advance_events (s : State) : s.advance.events = s.events := by
  unfold State.advance
  split <;> rfl

/-! ### The sink after each operation -/

/-- The sink follows the framebuffer and the events, and no other part. -/
theorem SinkMirrors.congr {s t : State} (hs : SinkMirrors s) (hfb : t.fb = s.fb)
    (hev : t.events = s.events) : SinkMirrors t := by
  unfold SinkMirrors
  rw [hfb, hev]
  exact hs

/-- An event recorded together with its effect on the framebuffer keeps the sink in step. -/
theorem SinkMirrors.log {s : State} (hs : SinkMirrors s) (e : Event) :
    SinkMirrors ({ s with fb := showEvent s.fb e }.log e) := by
  change (s.events ++ [e]).foldl showEvent Screen.blank = showEvent s.fb e
  rw [List.foldl_concat, ← hs]
  rfl

theorem SinkMirrors.pixelWrite {s : State} (hs : SinkMirrors s) (px py : Nat) (f : Bool) :
    SinkMirrors (pixelWrite px py f s) := by
  by_cases h : px < 64 ∧ py < 32
  · rw [pixelWrite_inside f s h.1 h.2]
    exact hs.log (.notify _ _ _)
  · rw [pixelWrite_outside f s h]
    exact hs

theorem SinkMirrors.toggles {s : State} (hs : SinkMirrors s) (cells : List (Nat × Nat)) :
    SinkMirrors (toggles cells s) := by
  induction cells generalizing s with
  | nil => exact hs
  | cons c rest ih => exact ih (hs.pixelWrite c.1 c.2 false)

theorem SinkMirrors.drawRows {s : State} (hs : SinkMirrors s) (px py count : Nat) :
    SinkMirrors (drawRows px py count s) := by
  rw [drawRows_eq_toggles]
  exact hs.toggles _

/-- Notifications of cleared cells clear exactly those cells of the sink's screen. -/
theorem getCell_clears (cells : List (Fin 64 × Fin 32)) (screen : Screen) (x : Fin 64)
    (y : Fin 32) :
    ((cells.map fun c => Event.notify c.1 c.2 false).foldl showEvent screen)[x.val][y.val] =
      if (x, y) ∈ cells then false else screen[x.val][y.val] := by
  induction cells generalizing screen with
  | nil => rfl
  | cons c rest ih =>
    rw [List.map_cons, List.foldl_cons, ih, showEvent, Screen.getCell_setCell]
    by_cases hc : c.1 = x ∧ c.2 = y
    · obtain ⟨rfl, rfl⟩ := hc
      simp
    · have hne : (x, y) ≠ c := fun h => hc (by rw [← h]; exact ⟨rfl, rfl⟩)
      rw [if_neg hc]
      simp only [List.mem_cons, hne, false_or]

/-- ClearScreen notifies every cell, so the sink's screen is blank whatever the order. -/
theorem sinkMirrors_clearGrid (s : State) : SinkMirrors (clearGrid s) := by
  refine Screen.ext_cells fun x y => ?_
  change ((s.events ++ _).foldl showEvent Screen.blank)[x.val][y.val] =
    Screen.blank[x.val][y.val]
  rw [List.foldl_append, getCell_clears, Screen.getCell_blank,
    if_pos ((clearOrder_perm s.freeCount).mem_iff.2 (mem_gridCells (x, y)))]

theorem SinkMirrors.keyPressed {s : State} (hs : SinkMirrors s) (k : Fin 16) :
    SinkMirrors (keyPressed k s).2 := by
  rw [keyPressed_spec]
  exact hs.log (.keyQuery k _)

theorem SinkMirrors.randomByte {s : State} (hs : SinkMirrors s) :
    SinkMirrors (randomByte s).2 := by
  rw [randomByte_spec]
  exact hs.log (.randomRequest _)

/-! ### The sink after an instruction and after a transaction -/

/-- An instruction that writes neither the framebuffer nor the events leaves the sink in step. -/
theorem SinkMirrors.exec_of_quiet {i : Instr} {s t : State} (hs : SinkMirrors s)
    (h : exec i s = .next t) (hfb : .screen ∉ partsWritten i) (hev : .events ∉ partsWritten i) :
    SinkMirrors t := by
  obtain ⟨f, rfl⟩ | hframe := exec_frame h
  · exact hs
  · refine hs.congr ?_ (keepsAllBut_of_eq_withPartsOf hframe .events hev)
    exact Screen.ext_cells (keepsAllBut_of_eq_withPartsOf hframe .screen hfb)

/-- Every instruction keeps the sink in step: the ones that record events by the operation that
records them, the others because they touch neither side. -/
theorem SinkMirrors.exec {i : Instr} {s t : State} (hs : SinkMirrors s)
    (h : exec i s = .next t) : SinkMirrors t := by
  cases i with
  | clearScreen =>
    obtain rfl := Host.Outcome.next.inj h
    exact sinkMirrors_clearGrid s
  | rand x kk =>
    obtain rfl := Host.Outcome.next.inj h
    exact hs.randomByte
  | draw x y n =>
    obtain ⟨a, _, rfl⟩ | ⟨_, rfl⟩ := guardRange_cases h
    · exact hs
    · exact hs.drawRows _ _ _
  | skipPressed x | skipNotPressed x | waitKey x =>
    obtain ⟨_, rfl⟩ | ⟨k, _, rfl⟩ := withKey_cases h
    · exact hs
    · exact hs.keyPressed k
  | _ => exact hs.exec_of_quiet h (by simp [partsWritten]) (by simp [partsWritten])

/-- Settles O50: of the three transactions only the instruction step reaches the framebuffer or the
events, and there every instruction keeps the sink in step. -/
theorem everyTransactionKeepsTheSinkInStep :
    Obligations.EveryTransactionKeepsTheSinkInStep := by
  intro s t hs h
  have hbegin : SinkMirrors s.beginCall := hs
  obtain ⟨_, ⟨_, hstep⟩ | ⟨_, rfl⟩ | ⟨image, _, _, rfl⟩⟩ := step_cases h
  · obtain ⟨_, rfl⟩ | ⟨_, u, hu, rfl⟩ := instructionStep_cases hstep
    · exact hbegin
    · exact (hbegin.exec hu).congr u.advance_fb u.advance_events
  · exact hbegin
  · exact hbegin

end Sys2Proof.Machine
end

section
/-! PROOFS. The sound timer: every operation of the execute phase does with another ST what it does with the first (10_state.md R26). -/

namespace Sys2Proof.Machine

/-- The state with another sound timer. -/
def State.withSound (s : State) (b : Byte) : State := { s with st := b }

@[simp] theorem State.withSound_flagAlias (s : State) (b : Byte) :
    (s.withSound b).flagAlias = s.flagAlias := rfl
@[simp] theorem State.withSound_keyAnswers (s : State) (b : Byte) :
    (s.withSound b).keyAnswers = s.keyAnswers := rfl
@[simp] theorem State.withSound_randomBytes (s : State) (b : Byte) :
    (s.withSound b).randomBytes = s.randomBytes := rfl

/-- A range check passes or fails alike, since ST is not part of it. -/
theorem guardRange_withSound {raw : Word} {count : Nat} {effect : State → State} {s t : State}
    {b : Byte} (heffect : effect (s.withSound b) = (effect s).withSound b)
    (h : guardRange raw count effect s = .next t) :
    guardRange raw count effect (s.withSound b) = .next (t.withSound b) := by
  by_cases hr : count = 0 ∨ s.iReg.toNat + count ≤ memSize
  · obtain rfl := next_unique h (guardRange_inside hr)
    rw [guardRange_inside (s := s.withSound b) hr, heffect]
  · obtain rfl := next_unique h (guardRange_outside hr)
    exact guardRange_outside (s := s.withSound b) hr

/-- V[x] is the same key, or no key, under every ST. -/
theorem withKey_withSound {raw : Word} {x : Reg} {effect : Fin 16 → State → State} {s t : State}
    {b : Byte} (heffect : ∀ k, effect k (s.withSound b) = (effect k s).withSound b)
    (h : withKey raw x effect s = .next t) :
    withKey raw x effect (s.withSound b) = .next (t.withSound b) := by
  obtain ⟨hkey, rfl⟩ | ⟨k, hkey, rfl⟩ := withKey_cases h
  · exact withKey_outside (s := s.withSound b) (remap_eq_none.1 hkey)
  · rw [withKey_inside (s := s.withSound b) hkey, heffect]

theorem keyPressed_withSound (k : Fin 16) (s : State) (b : Byte) :
    keyPressed k (s.withSound b) = ((keyPressed k s).1, (keyPressed k s).2.withSound b) := by
  unfold keyPressed
  rw [State.withSound_keyAnswers]
  cases s.keyAnswers <;> rfl

theorem skipOnPressed_withSound (k : Fin 16) (s : State) (b : Byte) :
    skipOnPressed k (s.withSound b) = (skipOnPressed k s).withSound b := by
  unfold skipOnPressed
  rw [keyPressed_withSound]
  rfl

theorem skipOnReleased_withSound (k : Fin 16) (s : State) (b : Byte) :
    skipOnReleased k (s.withSound b) = (skipOnReleased k s).withSound b := by
  unfold skipOnReleased
  rw [keyPressed_withSound]
  rfl

theorem waitOnKey_withSound (k : Fin 16) (s : State) (b : Byte) :
    waitOnKey k (s.withSound b) = (waitOnKey k s).withSound b := by
  unfold waitOnKey
  rw [keyPressed_withSound]
  rfl

theorem randomByte_withSound (s : State) (b : Byte) :
    randomByte (s.withSound b) = ((randomByte s).1, (randomByte s).2.withSound b) := by
  unfold randomByte
  rw [State.withSound_randomBytes]
  cases s.randomBytes <;> rfl

theorem writeFlagged_withSound (flag result : Byte → Byte → Byte) (x y : Reg) (s : State)
    (b : Byte) : writeFlagged flag result x y (s.withSound b) =
      (writeFlagged flag result x y s).withSound b := by
  unfold writeFlagged
  rw [State.withSound_flagAlias]
  cases s.flagAlias <;> rfl

theorem pixelWrite_withSound (px py : Nat) (f : Bool) (s : State) (b : Byte) :
    pixelWrite px py f (s.withSound b) = (pixelWrite px py f s).withSound b := by
  by_cases h : px < 64 ∧ py < 32
  · rw [pixelWrite_inside f _ h.1 h.2, pixelWrite_inside f _ h.1 h.2]
    rfl
  · rw [pixelWrite_outside f _ h, pixelWrite_outside f _ h]

theorem toggles_withSound (cells : List (Nat × Nat)) (s : State) (b : Byte) :
    toggles cells (s.withSound b) = (toggles cells s).withSound b := by
  induction cells generalizing s with
  | nil => rfl
  | cons c rest ih =>
    change toggles rest (pixelWrite c.1 c.2 false (s.withSound b)) = _
    rw [pixelWrite_withSound, ih]
    rfl

theorem drawRows_withSound (px py count : Nat) (s : State) (b : Byte) :
    drawRows px py count (s.withSound b) = (drawRows px py count s).withSound b := by
  rw [drawRows_eq_toggles, drawRows_eq_toggles]
  exact toggles_withSound _ s b

/-- Each instruction's check and effect are the same under another ST, but for the one that sets
ST. -/
theorem exec_withSound {i : Instr} {s t : State} (b : Byte) (hi : ∀ x, i ≠ .setSound x)
    (h : exec i s = .next t) : exec i (s.withSound b) = .next (t.withSound b) := by
  cases i with
  | setSound x => exact absurd rfl (hi x)
  | ret =>
    cases hs : s.stack with
    | nil =>
      obtain rfl := next_unique h (exec_ret_of_nil hs)
      exact exec_ret_of_nil (s := s.withSound b) hs
    | cons entry rest =>
      obtain rfl := next_unique h (exec_ret_of_cons hs)
      exact exec_ret_of_cons (s := s.withSound b) hs
  | call nnn =>
    cases hs : s.stackFull with
    | true =>
      obtain rfl := next_unique h (exec_call_of_full nnn hs)
      exact exec_call_of_full nnn (s := s.withSound b) hs
    | false =>
      obtain rfl := next_unique h (exec_call_of_room nnn hs)
      exact exec_call_of_room nnn (s := s.withSound b) hs
  | spriteDigit x =>
    by_cases hd : s.getV x > 9
    · obtain rfl := next_unique h (exec_spriteDigit_of_gt hd)
      exact exec_spriteDigit_of_gt (s := s.withSound b) hd
    · obtain rfl := next_unique h (exec_spriteDigit_of_le hd)
      exact exec_spriteDigit_of_le (s := s.withSound b) hd
  | sub x y | shr x y | subn x y | shl x y =>
    obtain rfl := Host.Outcome.next.inj h
    exact congrArg Host.Outcome.next (writeFlagged_withSound _ _ x y s b)
  | rand x kk =>
    obtain rfl := Host.Outcome.next.inj h
    change execRand x kk (s.withSound b) = _
    unfold execRand
    rw [randomByte_withSound]
    rfl
  | draw x y n => exact guardRange_withSound (drawRows_withSound _ _ _ s b) h
  | storeBCD x | storeRegisters x | readRegisters x => exact guardRange_withSound rfl h
  | skipPressed x => exact withKey_withSound (fun k => skipOnPressed_withSound k s b) h
  | skipNotPressed x => exact withKey_withSound (fun k => skipOnReleased_withSound k s b) h
  | waitKey x => exact withKey_withSound (fun k => waitOnKey_withSound k s b) h
  | _ =>
    obtain rfl := Host.Outcome.next.inj h
    rfl

/-- Settles O53: replacing ST by the byte is `withSound`, which every instruction commutes with. -/
theorem noInstructionReadsTheSoundTimer : Obligations.NoInstructionReadsTheSoundTimer :=
  fun _ _ _ b hi h => exec_withSound b hi h

end Sys2Proof.Machine
end

section
/-! PROOFS. The state after reset (10_state.md R32, 20_memory.md R68). -/

namespace Sys2Proof.Machine

/-- At the parameters' defaults every byte is what an unlisted address reads as: glyph 0 is the
first of the default font. -/
theorem initialByte_defaultParams : initialByte defaultParams = Memory.unlisted := by
  have hglyph : ∀ a < 5, glyphZero.getD a 0x00 = Memory.unlisted a := by decide
  funext a
  unfold initialByte
  split
  · next ha => exact hglyph a ha
  · split <;> rfl

theorem construct_defaultParams : State.construct defaultParams = State.reset := by
  unfold State.construct
  rw [initialByte_defaultParams, Memory.ofBytes_unlisted]
  rfl

theorem State.reset_getV (r : Reg) : State.reset.getV r = 0 := by
  simp [State.getV, State.reset]

theorem State.reset_pixel (x : Fin 64) (y : Fin 32) : State.reset.pixel x y = false :=
  Screen.getCell_blank x y

/-- Settles O44: reset lists no cell of memory, so addresses 0 to 4 read as glyph 0 of the font. -/
theorem resetLeavesTheSpecsValues : Obligations.ResetLeavesTheSpecsValues :=
  ⟨construct_defaultParams, State.reset_getV, rfl, rfl, rfl, rfl, rfl, State.reset_pixel, rfl,
    rfl, rfl, rfl, rfl, rfl⟩

end Sys2Proof.Machine
end

section
/-! PROOFS. Every word decodes to an instruction that encodes back to it (30_encoding.md R93, R95, R96, R100). -/

namespace Sys2Proof

/-! ### The encoder's patterns on the fields of a word -/

theorem packNNN_fieldNNN {raw : Word} {major : BitVec 4} (hm : fieldMajor raw = major.toNat) :
    packNNN major (fieldNNN raw) = raw := by
  refine BitVec.eq_of_toNat_eq ?_
  rw [fieldMajor_eq] at hm
  rw [packNNN_toNat, fieldNNN_toNat]
  omega

theorem packXKK_fieldX {raw : Word} {major : BitVec 4} {kk : Byte}
    (hm : fieldMajor raw = major.toNat) (hk : (fieldKK raw).toNat = kk.toNat) :
    packXKK major (fieldX raw) kk = raw := by
  refine BitVec.eq_of_toNat_eq ?_
  rw [fieldMajor_eq] at hm
  rw [fieldKK_toNat] at hk
  rw [packXKK_toNat, fieldX_val]
  omega

theorem packXYN_fieldXY {raw : Word} {major : BitVec 4} {n : Fin 16}
    (hm : fieldMajor raw = major.toNat) (hn : (fieldN raw).val = n.val) :
    packXYN major (fieldX raw) (fieldY raw) n = raw := by
  refine BitVec.eq_of_toNat_eq ?_
  rw [fieldMajor_eq] at hm
  rw [fieldN_val] at hn
  rw [packXYN_toNat, fieldX_val, fieldY_val]
  omega

/-! ### The decoder, group by group -/

/-- The instruction is one, and its opcode is the word. -/
def Reads (raw : Word) (i : Instr) : Prop := wellFormed i = true ∧ encode i = raw

theorem reads_unrecognized {raw : Word} (h : illegalWord raw = true) :
    Reads raw (.unrecognized raw) := ⟨h, rfl⟩

theorem reads_decode0 {raw : Word} (hm : fieldMajor raw = 0) : Reads raw (decode0 raw) := by
  unfold decode0
  split
  · next h => exact ⟨rfl, h.symm⟩
  · next hclear =>
    split
    · next h => exact ⟨rfl, h.symm⟩
    · next hret =>
      rw [fieldMajor_eq] at hm
      exact reads_unrecognized (by simpa [illegalWord, hm] using ⟨hclear, hret⟩)

theorem reads_decode8 {raw : Word} (hm : fieldMajor raw = 8) : Reads raw (decode8 raw) := by
  unfold decode8
  split
  case h_10 =>
    rw [fieldMajor_eq] at hm
    simp only [fieldN_val, imp_false] at *
    refine reads_unrecognized ?_
    simp [illegalWord, hm]
    omega
  all_goals exact ⟨rfl, packXYN_fieldXY hm ‹_›⟩

theorem reads_decodeE {raw : Word} (hm : fieldMajor raw = 14) : Reads raw (decodeE raw) := by
  unfold decodeE
  split
  case h_3 =>
    rw [fieldMajor_eq] at hm
    simp only [fieldKK_toNat, imp_false] at *
    refine reads_unrecognized ?_
    simp [illegalWord, hm]
    omega
  all_goals exact ⟨rfl, packXKK_fieldX hm ‹_›⟩

theorem reads_decodeF {raw : Word} (hm : fieldMajor raw = 15) : Reads raw (decodeF raw) := by
  unfold decodeF
  split
  case h_10 =>
    rw [fieldMajor_eq] at hm
    simp only [fieldKK_toNat, imp_false] at *
    refine reads_unrecognized ?_
    simp [illegalWord, hm]
    omega
  all_goals exact ⟨rfl, packXKK_fieldX hm ‹_›⟩

theorem reads_decode (raw : Word) : Reads raw (decode raw) := by
  unfold decode
  split
  case h_1 hm => exact reads_decode0 hm
  case h_2 hm | h_3 hm | h_11 hm | h_12 hm => exact ⟨rfl, packNNN_fieldNNN hm⟩
  case h_4 hm | h_5 hm | h_7 hm | h_8 hm | h_13 hm => exact ⟨rfl, packXKK_fieldX hm rfl⟩
  case h_6 hm | h_10 hm =>
    split
    · next hn => exact ⟨rfl, packXYN_fieldXY hm (congrArg Fin.val hn)⟩
    · next hn =>
      have hn' : raw.toNat % 16 ≠ 0 := fun h => hn (fieldN_eq h)
      rw [fieldMajor_eq] at hm
      exact reads_unrecognized (by simp [illegalWord, hm, hn'])
  case h_9 hm => exact reads_decode8 hm
  case h_14 hm => exact ⟨rfl, packXYN_fieldXY hm rfl⟩
  case h_15 hm => exact reads_decodeE hm
  case h_16 =>
    have := raw.isLt
    refine reads_decodeF ?_
    simp only [fieldMajor_eq, imp_false] at *
    omega

/-- A word is the opcode of what it decodes to. -/
theorem encode_decode (raw : Word) : encode (decode raw) = raw := (reads_decode raw).2

/-- Every word decodes to an instruction. -/
theorem wellFormed_decode (raw : Word) : wellFormed (decode raw) = true := (reads_decode raw).1

end Sys2Proof
end

section
/-! PROOFS. The instruction step as an equation: the fetch of two bytes, the execute phase, the advance (20_memory.md R63, R65, 40_execution_cycle.md R130-R134). -/

namespace Sys2Proof.Machine

theorem fetchWord_toNat (s : State) :
    (fetchWord s).toNat =
      256 * (s.mem.read s.pc.toNat).toNat + (s.mem.read (s.pc.toNat + 1)).toNat := by
  rw [fetchWord, joinBytes, append_toNat, Nat.mul_comm]
  rfl

/-- In the status Running a listed or implied step runs the instruction step. -/
theorem step_of_nextCall_step {s : State} (hrun : s.status = .running) (hcall : s.nextCall = .step) :
    step s = instructionStep s.beginCall := by
  unfold step transact
  rw [hrun, hcall]

theorem instructionStep_of_fetch {s t : State} (hpc : s.pc.toNat + 1 ≤ 0xFFF)
    (h : exec (decode (fetchWord s)) s = .next t) : instructionStep s = .next t.advance := by
  unfold instructionStep
  rw [if_neg (by omega), h]
  rfl

theorem instructionStep_of_no_fetch {s : State} (hpc : s.pc.toNat + 1 > 0xFFF) :
    instructionStep s = .next (s.haltedBy (.fetchOutOfRange s.pc)) := by
  unfold instructionStep
  rw [if_pos hpc]
  rfl

/-- Settles O6: the word of the two bytes is the fetched one, and the advance depends on the status
the execute phase leaves. -/
theorem stepRunsTheDecodedInstruction : Obligations.StepRunsTheDecodedInstruction := by
  intro s w hrun hcall hw
  obtain rfl : w = fetchWord s := BitVec.eq_of_toNat_eq (hw.trans (fetchWord_toNat s).symm)
  rw [step_of_nextCall_step hrun hcall]
  refine ⟨fun hpc t ht => ?_, fun hpc => instructionStep_of_no_fetch hpc⟩
  rw [instructionStep_of_fetch (s := s.beginCall) hpc ht]
  refine ⟨fun hrun' => ?_, fun f hf => ?_⟩
  · rw [State.advance_running hrun']
  · rw [State.advance_halted hf]

end Sys2Proof.Machine
end

section
/-! PROOFS. The invariant: what an instruction does to memory's form, to the stack and to the status, and that every transaction keeps all three (20_memory.md R60, 10_state.md R24, 42_control_flow.md R160, R162, 60_exceptions.md R300, R304). -/

namespace Sys2Proof.Machine

/-! ### Parts an instruction is not listed with -/

/-- An instruction that is not listed with memory leaves the list of cells as it is. -/
theorem exec_mem_of_not_written {i : Instr} {s t : State} (h : exec i s = .next t)
    (hi : .memory ∉ partsWritten i) : t.mem = s.mem := by
  obtain ⟨f, rfl⟩ | hframe := exec_frame h
  · rfl
  · exact (congrArg State.mem hframe).trans (if_neg hi)

theorem exec_stack_of_not_written {i : Instr} {s t : State} (h : exec i s = .next t)
    (hi : .stack ∉ partsWritten i) : t.stack = s.stack := by
  obtain ⟨f, rfl⟩ | hframe := exec_frame h
  · rfl
  · exact keepsAllBut_of_eq_withPartsOf hframe .stack hi

theorem stackLimit_not_written (i : Instr) : .stackLimit ∉ partsWritten i := by
  cases i <;> simp [partsWritten]

theorem exec_stackLimit {i : Instr} {s t : State} (h : exec i s = .next t) :
    t.stackLimit = s.stackLimit := by
  obtain ⟨f, rfl⟩ | hframe := exec_frame h
  · rfl
  · exact keepsAllBut_of_eq_withPartsOf hframe .stackLimit (stackLimit_not_written i)

/-! ### Memory stays canonical -/

/-- A checked store of no more bytes than were checked keeps the canonical form. -/
theorem mem_wf_of_guarded_store {raw : Word} {count : Nat} {bs : List Byte} {s t : State}
    (hs : s.mem.wf = true) (h : guardRange raw count (State.storeAtI bs) s = .next t)
    (hcount : 0 < count) (hlen : bs.length ≤ count) : t.mem.wf = true := by
  obtain ⟨a, _, rfl⟩ | ⟨hnone, rfl⟩ := guardRange_cases h
  · exact hs
  · have hrange := firstOutOfRange_eq_none.1 hnone
    exact State.storeAtI_wf hs (by omega)

theorem exec_mem_wf {i : Instr} {s t : State} (hs : s.mem.wf = true) (h : exec i s = .next t) :
    t.mem.wf = true := by
  cases i with
  | storeBCD x => exact mem_wf_of_guarded_store hs h (by decide) (Nat.le_refl 3)
  | storeRegisters x =>
    exact mem_wf_of_guarded_store hs h (Nat.succ_pos _) (List.length_take_le _ _)
  | _ => rw [exec_mem_of_not_written h (by simp [partsWritten])]; exact hs

/-! ### The stack stays legal -/

/-- The stack is no deeper than STACK_LIMIT and holds only addresses a Call can be fetched from:
the second and third part of `Inv`. -/
def StackLegal (s : State) : Prop :=
  (∀ limit, s.stackLimit.depth = some limit → s.stack.length ≤ limit) ∧
  ∀ e ∈ s.stack, e.toNat + 1 ≤ 0xFFF

theorem StackLegal.congr {s t : State} (hs : StackLegal s) (hstack : t.stack = s.stack)
    (hlimit : t.stackLimit = s.stackLimit) : StackLegal t := by
  unfold StackLegal
  rw [hstack, hlimit]
  exact hs

/-- Popping leaves fewer of the same entries. -/
theorem StackLegal.pop {s t : State} {entry : Word} (hs : StackLegal s)
    (hstack : s.stack = entry :: t.stack) (hlimit : t.stackLimit = s.stackLimit) :
    StackLegal t := by
  obtain ⟨hdepth, haddr⟩ := hs
  rw [hstack] at hdepth haddr
  rw [← hlimit] at hdepth
  exact ⟨fun limit hl => Nat.le_of_succ_le (hdepth limit hl),
    fun e he => haddr e (List.mem_cons_of_mem entry he)⟩

/-- A stack with room takes one more fetchable address. -/
theorem StackLegal.push {s t : State} {entry : Word} (hs : StackLegal s)
    (hroom : s.stackFull = false) (hentry : entry.toNat + 1 ≤ 0xFFF)
    (hstack : t.stack = entry :: s.stack) (hlimit : t.stackLimit = s.stackLimit) :
    StackLegal t := by
  obtain ⟨hdepth, haddr⟩ := hs
  unfold StackLegal
  rw [hstack, hlimit]
  refine ⟨fun limit hl => ?_, List.forall_mem_cons.2 ⟨hentry, haddr⟩⟩
  have hne : s.stack.length ≠ limit := by
    rintro rfl
    rw [(stackFull_iff s).2 hl] at hroom
    cases hroom
  exact Nat.lt_of_le_of_ne (hdepth limit hl) hne

/-- A Return pops, a Call with room pushes its own address, and nothing else touches the stack. -/
theorem exec_stackLegal {i : Instr} {s t : State} (hs : StackLegal s)
    (hpc : s.pc.toNat + 1 ≤ 0xFFF) (h : exec i s = .next t) : StackLegal t := by
  have hlimit := exec_stackLimit h
  cases i with
  | ret =>
    cases hstack : s.stack with
    | nil =>
      obtain rfl := next_unique h (exec_ret_of_nil hstack)
      exact hs
    | cons entry rest =>
      obtain rfl := next_unique h (exec_ret_of_cons hstack)
      exact hs.pop hstack rfl
  | call nnn =>
    cases hfull : s.stackFull with
    | true =>
      obtain rfl := next_unique h (exec_call_of_full nnn hfull)
      exact hs
    | false =>
      obtain rfl := next_unique h (exec_call_of_room nnn hfull)
      exact hs.push hfull hpc rfl rfl
  | _ => exact hs.congr (exec_stack_of_not_written h (by simp [partsWritten])) hlimit

/-! ### A fatal status is explained -/

/-- The address a failed range check reports lies above memory. -/
theorem gt_of_firstOutOfRange {base count a : Nat} (h : firstOutOfRange base count = some a) :
    a > 0xFFF := by
  obtain ⟨_, rfl⟩ := firstOutOfRange_eq_some.1 h
  exact Nat.le_max_right base memSize

/-- The explanation of a fatal value reads pc, memory, the stack and its limit, never the status. -/
theorem Fatal.explainedBy_haltedBy {s : State} {f : Fatal} (g : Fatal) (h : f.explainedBy s) :
    f.explainedBy (s.haltedBy g) := by
  cases f <;> exact h

theorem drawRows_status (px py count : Nat) (s : State) :
    (drawRows px py count s).status = s.status := by
  rw [drawRows_frame]
  rfl

theorem keyPressed_status (k : Fin 16) (s : State) : (keyPressed k s).2.status = s.status := by
  rw [keyPressed_spec]

theorem randomByte_status (s : State) : (randomByte s).2.status = s.status := by
  rw [randomByte_spec]

theorem writeFlagged_status (flag result : Byte → Byte → Byte) (x y : Reg) (s : State) :
    (writeFlagged flag result x y s).status = s.status := by
  rw [writeFlagged_frame]

/-- The fetched instruction leaves the status alone, or fails the check that its fatal value
reports. -/
theorem exec_status_cases {i : Instr} {s t : State} (hfetch : encode i = fetchWord s)
    (hwf : wellFormed i = true) (h : exec i s = .next t) :
    t.status = s.status ∨ ∃ f, t = s.haltedBy f ∧ f.explainedBy s := by
  cases i with
  | ret =>
    cases hstack : s.stack with
    | nil => exact .inr ⟨_, next_unique h (exec_ret_of_nil hstack), hfetch, rfl, hstack⟩
    | cons entry rest =>
      obtain rfl := next_unique h (exec_ret_of_cons hstack)
      exact .inl rfl
  | call nnn =>
    cases hfull : s.stackFull with
    | true =>
      exact .inr ⟨_, next_unique h (exec_call_of_full nnn hfull), hfetch,
        (stackFull_iff s).1 hfull⟩
    | false =>
      obtain rfl := next_unique h (exec_call_of_room nnn hfull)
      exact .inl rfl
  | spriteDigit x =>
    by_cases hd : s.getV x > 9
    · exact .inr ⟨_, next_unique h (exec_spriteDigit_of_gt hd), hfetch, hd⟩
    · obtain rfl := next_unique h (exec_spriteDigit_of_le hd)
      exact .inl rfl
  | draw x y n =>
    obtain ⟨a, ha, rfl⟩ | ⟨_, rfl⟩ := guardRange_cases h
    · exact .inr ⟨_, rfl, hfetch, gt_of_firstOutOfRange ha⟩
    · exact .inl (drawRows_status _ _ _ s)
  | storeBCD x | storeRegisters x | readRegisters x =>
    obtain ⟨a, ha, rfl⟩ | ⟨_, rfl⟩ := guardRange_cases h
    · exact .inr ⟨_, rfl, hfetch, gt_of_firstOutOfRange ha⟩
    · exact .inl rfl
  | skipPressed x | skipNotPressed x | waitKey x =>
    obtain ⟨hkey, rfl⟩ | ⟨k, _, rfl⟩ := withKey_cases h
    · exact .inr ⟨_, rfl, hfetch, remap_eq_none.1 hkey⟩
    · exact .inl (keyPressed_status k s)
  | unrecognized raw =>
    exact .inr ⟨_, (Host.Outcome.next.inj h).symm, hfetch, hwf⟩
  | sub x y | shr x y | subn x y | shl x y =>
    obtain rfl := Host.Outcome.next.inj h
    exact .inl (writeFlagged_status _ _ x y s)
  | rand x kk =>
    obtain rfl := Host.Outcome.next.inj h
    exact .inl (randomByte_status s)
  | _ =>
    obtain rfl := Host.Outcome.next.inj h
    exact .inl rfl

/-! ### The invariant over a transaction -/

theorem inv_iff {s : State} :
    Inv s ↔ s.mem.wf = true ∧ StackLegal s ∧ ∀ f, s.status = .halted f → f.explainedBy s := by
  unfold Inv StackLegal
  simp only [and_assoc]

/-- In the status Running nothing is to be explained. -/
theorem inv_of_running {s : State} (hmem : s.mem.wf = true) (hstack : StackLegal s)
    (hrun : s.status = .running) : Inv s := by
  refine inv_iff.2 ⟨hmem, hstack, fun f hf => ?_⟩
  rw [hrun] at hf
  cases hf

/-- A fatal error that the state explains keeps the invariant. -/
theorem inv_haltedBy {s : State} {f : Fatal} (hmem : s.mem.wf = true) (hstack : StackLegal s)
    (hf : f.explainedBy s) : Inv (s.haltedBy f) := by
  refine inv_iff.2 ⟨hmem, hstack, fun g hg => ?_⟩
  obtain rfl : f = g := Status.halted.inj hg
  exact Fatal.explainedBy_haltedBy f hf

/-- An instruction step keeps the invariant: a fetched word is the opcode of the instruction it
decodes to, so a fatal value that carries the opcode carries the word at pc. -/
theorem inv_instructionStep {s t : State} (hmem : s.mem.wf = true) (hstack : StackLegal s)
    (hrun : s.status = .running) (h : instructionStep s = .next t) : Inv t := by
  obtain ⟨hpc, rfl⟩ | ⟨hpc, u, hu, rfl⟩ := instructionStep_cases h
  · exact inv_haltedBy hmem hstack ⟨rfl, hpc⟩
  · obtain hstatus | ⟨f, rfl, hf⟩ :=
      exec_status_cases (encode_decode _) (wellFormed_decode _) hu
    · have hmem' := exec_mem_wf hmem hu
      have hstack' := exec_stackLegal hstack (Nat.le_of_not_gt hpc) hu
      have hrun' := hstatus.trans hrun
      rw [State.advance_running hrun']
      exact inv_of_running hmem' (hstack'.congr rfl rfl) hrun'
    · rw [State.advance_halted rfl]
      exact inv_haltedBy hmem hstack hf

/-- Settles O49: an instruction step keeps each part of the invariant, a tick touches none, and an
image load only memory, in the canonical form. -/
theorem everyTransactionKeepsTheInvariant : Obligations.EveryTransactionKeepsTheInvariant := by
  intro s t hs h
  obtain ⟨hmem, hstack, _⟩ := inv_iff.1 hs
  obtain ⟨hrun, ⟨_, hstep⟩ | ⟨_, rfl⟩ | ⟨image, _, _, rfl⟩⟩ := step_cases h
  · exact inv_instructionStep (s := s.beginCall) hmem hstack hrun hstep
  · exact inv_of_running hmem hstack hrun
  · exact inv_of_running (loadImage_wf hmem) hstack hrun

end Sys2Proof.Machine
end

section
/-! PROOFS. The decoder against the encoder and the opcode map: every instruction is read back from its opcode, a word decodes to the one row it matches, and the words of no row are the illegal ones (30_encoding.md R93-R96, R100). -/

namespace Sys2Proof

/-! ### The words that decode to Unrecognized -/

/-- In each group of the decoder an illegal word misses every row. -/
theorem decode_of_illegalWord {raw : Word} (h : illegalWord raw = true) :
    decode raw = .unrecognized raw := by
  unfold illegalWord at h
  split at h
  case h_1 hm =>
    simp only [Bool.and_eq_true, bne_iff_ne] at h
    simp only [decode, majorOf hm, decode0, if_neg h.1, if_neg h.2]
  case h_2 hm | h_4 hm =>
    have hn : fieldN raw ≠ 0 := fun h0 => by simp [← fieldN_val, h0] at h
    simp only [decode, majorOf hm, if_neg hn]
  case h_3 hm =>
    simp only [decode, majorOf hm, decode8]
    split
    case h_10 => rfl
    all_goals simp_all [fieldN_val]
  case h_5 hm =>
    simp only [decode, majorOf hm, decodeE]
    split
    case h_3 => rfl
    all_goals simp_all [fieldKK_toNat]
  case h_6 hm =>
    simp only [decode, majorOf hm, decodeF]
    split
    case h_10 => rfl
    all_goals simp_all [fieldKK_toNat]
  case h_7 => cases h

theorem decode_eq_unrecognized_iff {raw : Word} :
    decode raw = .unrecognized raw ↔ illegalWord raw = true := by
  refine ⟨fun h => ?_, decode_of_illegalWord⟩
  have hwf := wellFormed_decode raw
  rwa [h] at hwf

/-- Settles O4: group by group, the rule that `wellFormed` checks is the spec's list. -/
theorem illegalWordsAreUnrecognized : Obligations.IllegalWordsAreUnrecognized := by
  intro raw
  rw [decode_eq_unrecognized_iff]
  unfold illegalWord
  split
  case h_1 hm | h_2 hm | h_3 hm | h_4 hm | h_5 hm | h_6 hm => simp [hm, BitVec.toNat_eq]
  case h_7 => simp_all

/-! ### Every instruction is read back -/

/-- An opcode with a literal low nibble, its literals first. -/
theorem packXYN_toNat_literals (major : BitVec 4) (x y n : Fin 16) :
    (packXYN major x y n).toNat = 4096 * major.toNat + n.val + 256 * x.val + 16 * y.val := by
  rw [packXYN_toNat]
  omega

/-- An opcode with a literal low byte, its literals first. -/
theorem packXKK_toNat_literals (major : BitVec 4) (x : Reg) (kk : Byte) :
    (packXKK major x kk).toNat = 4096 * major.toNat + kk.toNat + 256 * x.val := by
  rw [packXKK_toNat]
  omega

/-- The decoder reads back every row of the opcode map. -/
theorem decode_encode : ∀ i : Instr, wellFormed i = true → decode (encode i) = i
  | .clearScreen, _ => rfl
  | .ret, _ => rfl
  | .jump nnn, _ => decode_jump (packNNN_toNat 0x1 nnn)
  | .call nnn, _ => decode_call (packNNN_toNat 0x2 nnn)
  | .skipEq x kk, _ => decode_skipEq (packXKK_toNat 0x3 x kk)
  | .skipNe x kk, _ => decode_skipNe (packXKK_toNat 0x4 x kk)
  | .skipEqReg x y, _ => decode_skipEqReg (packXYN_toNat_literals 0x5 x y 0x0)
  | .loadImm x kk, _ => decode_loadImm (packXKK_toNat 0x6 x kk)
  | .addImm x kk, _ => decode_addImm (packXKK_toNat 0x7 x kk)
  | .move x y, _ => decode_move (packXYN_toNat_literals 0x8 x y 0x0)
  | .or x y, _ => decode_or (packXYN_toNat_literals 0x8 x y 0x1)
  | .and x y, _ => decode_and (packXYN_toNat_literals 0x8 x y 0x2)
  | .xor x y, _ => decode_xor (packXYN_toNat_literals 0x8 x y 0x3)
  | .add x y, _ => decode_add (packXYN_toNat_literals 0x8 x y 0x4)
  | .sub x y, _ => decode_sub (packXYN_toNat_literals 0x8 x y 0x5)
  | .shr x y, _ => decode_shr (packXYN_toNat_literals 0x8 x y 0x6)
  | .subn x y, _ => decode_subn (packXYN_toNat_literals 0x8 x y 0x7)
  | .shl x y, _ => decode_shl (packXYN_toNat_literals 0x8 x y 0xE)
  | .skipNeReg x y, _ => decode_skipNeReg (packXYN_toNat_literals 0x9 x y 0x0)
  | .loadI nnn, _ => decode_loadI (packNNN_toNat 0xA nnn)
  | .jumpAdd nnn, _ => decode_jumpAdd (packNNN_toNat 0xB nnn)
  | .rand x kk, _ => decode_rand (packXKK_toNat 0xC x kk)
  | .draw x y n, _ => decode_draw (packXYN_toNat 0xD x y n)
  | .skipPressed x, _ => decode_skipPressed (packXKK_toNat_literals 0xE x 0x9E)
  | .skipNotPressed x, _ => decode_skipNotPressed (packXKK_toNat_literals 0xE x 0xA1)
  | .readDelay x, _ => decode_readDelay (packXKK_toNat_literals 0xF x 0x07)
  | .waitKey x, _ => decode_waitKey (packXKK_toNat_literals 0xF x 0x0A)
  | .setDelay x, _ => decode_setDelay (packXKK_toNat_literals 0xF x 0x15)
  | .setSound x, _ => decode_setSound (packXKK_toNat_literals 0xF x 0x18)
  | .addI x, _ => decode_addI (packXKK_toNat_literals 0xF x 0x1E)
  | .spriteDigit x, _ => decode_spriteDigit (packXKK_toNat_literals 0xF x 0x29)
  | .storeBCD x, _ => decode_storeBCD (packXKK_toNat_literals 0xF x 0x33)
  | .storeRegisters x, _ => decode_storeRegisters (packXKK_toNat_literals 0xF x 0x55)
  | .readRegisters x, _ => decode_readRegisters (packXKK_toNat_literals 0xF x 0x65)
  | .unrecognized _, h => decode_of_illegalWord h

/-- Settles O1, row by row. -/
theorem decodeReadsBackEncode : Obligations.DecodeReadsBackEncode := decode_encode

/-- Settles O2: in each group of the decoder the fields it takes from the word, packed again, are
the word. -/
theorem encodeReadsBackDecode : Obligations.EncodeReadsBackDecode := reads_decode

/-! ### The rows of the opcode map -/

/-- Every opcode matches its instruction's row. -/
theorem encode_and_rowMask : ∀ i : Instr, encode i &&& rowMask i = rowBits i
  | .clearScreen => Laws.RowMatches.clearScreen
  | .ret => Laws.RowMatches.ret
  | .jump nnn => Laws.RowMatches.jump nnn
  | .call nnn => Laws.RowMatches.call nnn
  | .skipEq x kk => Laws.RowMatches.skipEq x kk
  | .skipNe x kk => Laws.RowMatches.skipNe x kk
  | .skipEqReg x y => Laws.RowMatches.skipEqReg x y
  | .loadImm x kk => Laws.RowMatches.loadImm x kk
  | .addImm x kk => Laws.RowMatches.addImm x kk
  | .move x y => Laws.RowMatches.move x y
  | .or x y => Laws.RowMatches.or x y
  | .and x y => Laws.RowMatches.and x y
  | .xor x y => Laws.RowMatches.xor x y
  | .add x y => Laws.RowMatches.add x y
  | .sub x y => Laws.RowMatches.sub x y
  | .shr x y => Laws.RowMatches.shr x y
  | .subn x y => Laws.RowMatches.subn x y
  | .shl x y => Laws.RowMatches.shl x y
  | .skipNeReg x y => Laws.RowMatches.skipNeReg x y
  | .loadI nnn => Laws.RowMatches.loadI nnn
  | .jumpAdd nnn => Laws.RowMatches.jumpAdd nnn
  | .rand x kk => Laws.RowMatches.rand x kk
  | .draw x y n => Laws.RowMatches.draw x y n
  | .skipPressed x => Laws.RowMatches.skipPressed x
  | .skipNotPressed x => Laws.RowMatches.skipNotPressed x
  | .readDelay x => Laws.RowMatches.readDelay x
  | .waitKey x => Laws.RowMatches.waitKey x
  | .setDelay x => Laws.RowMatches.setDelay x
  | .setSound x => Laws.RowMatches.setSound x
  | .addI x => Laws.RowMatches.addI x
  | .spriteDigit x => Laws.RowMatches.spriteDigit x
  | .storeBCD x => Laws.RowMatches.storeBCD x
  | .storeRegisters x => Laws.RowMatches.storeRegisters x
  | .readRegisters x => Laws.RowMatches.readRegisters x
  | .unrecognized raw => Laws.RowMatches.unrecognized raw

/-- Every word matches the row of the instruction it decodes to. -/
theorem and_rowMask_decode (raw : Word) : raw &&& rowMask (decode raw) = rowBits (decode raw) := by
  simpa only [encode_decode] using encode_and_rowMask (decode raw)

theorem fields_of_and_F000 {raw bits : Word} (h : raw &&& 0xF000#16 = bits) :
    fieldMajor raw = bits.toNat / 4096 := by
  rw [fieldMajor_eq, ← h, and_F000]
  omega

theorem fields_of_and_F00F {raw bits : Word} (h : raw &&& 0xF00F#16 = bits) :
    fieldMajor raw = bits.toNat / 4096 ∧ (fieldN raw).val = bits.toNat % 16 := by
  rw [fieldMajor_eq, fieldN_val, ← h, and_F00F]
  omega

theorem fields_of_and_F0FF {raw bits : Word} (h : raw &&& 0xF0FF#16 = bits) :
    fieldMajor raw = bits.toNat / 4096 ∧ (fieldKK raw).toNat = bits.toNat % 256 := by
  rw [fieldMajor_eq, fieldKK_toNat, ← h, and_F0FF]
  omega

/-- A word that matches a row decodes to it: the mask fixes the fields that the decoder branches
on. -/
theorem row_decode_of_match {raw : Word} {i : Instr} (hi : ∀ w, i ≠ .unrecognized w)
    (h : raw &&& rowMask i = rowBits i) :
    rowMask (decode raw) = rowMask i ∧ rowBits (decode raw) = rowBits i := by
  cases i with
  | clearScreen | ret =>
    obtain rfl := (BitVec.and_allOnes (x := raw)).symm.trans h
    exact ⟨rfl, rfl⟩
  | jump | call | skipEq | skipNe | loadImm | addImm | loadI | jumpAdd | rand | draw =>
    have hm := fields_of_and_F000 h
    simp [decode, hm, rowMask, rowBits]
  | skipEqReg | skipNeReg =>
    obtain ⟨hm, hn⟩ := fields_of_and_F00F h
    simp [decode, hm, Fin.ext_iff, hn, rowMask, rowBits]
  | move | or | and | xor | add | sub | shr | subn | shl =>
    obtain ⟨hm, hn⟩ := fields_of_and_F00F h
    simp [decode, hm, decode8, hn, rowMask, rowBits]
  | skipPressed | skipNotPressed =>
    obtain ⟨hm, hk⟩ := fields_of_and_F0FF h
    simp [decode, hm, decodeE, hk, rowMask, rowBits]
  | readDelay | waitKey | setDelay | setSound | addI | spriteDigit | storeBCD | storeRegisters
  | readRegisters =>
    obtain ⟨hm, hk⟩ := fields_of_and_F0FF h
    simp [decode, hm, decodeF, hk, rowMask, rowBits]
  | unrecognized raw' => exact absurd rfl (hi raw')

/-- Settles O3: a word matches the row it decodes to and, the mask fixing what the decoder branches
on, no other. -/
theorem wordsDecodeByTheirRow : Obligations.WordsDecodeByTheirRow := by
  refine ⟨fun raw i hi => ⟨row_decode_of_match hi, fun ⟨hmask, hbits⟩ => ?_⟩, fun raw h => ?_⟩
  · rw [← hmask, ← hbits]
    exact and_rowMask_decode raw
  · by_contra hne
    refine h (decode raw) (fun w hw => hne ?_) (and_rowMask_decode raw)
    have hraw : encode (decode raw) = raw := encode_decode raw
    rw [hw] at hraw ⊢
    exact congrArg Instr.unrecognized hraw

/-- Settles O5, by running the decoder. -/
theorem sampleWordsDecode : Obligations.SampleWordsDecode := by
  unfold Obligations.SampleWordsDecode
  decide

end Sys2Proof
end

section
/-! PROOFS. What a transaction ends in: none in the status Halted, a next state in the status Running unless an image load comes too late, and a fatal error that changes nothing of the core but the status (40_execution_cycle.md R131, R137-R139, 60_exceptions.md R304, R309, 70_reset_and_hazards.md R341). -/

namespace Sys2Proof.Machine

/-! ### The status Halted -/

theorem step_of_halted {s : State} {f : Fatal} (h : s.status = .halted f) :
    step s = .refused .haltedCore := by
  unfold step transact
  rw [h]

/-- Settles O7: the status is tested before the host's call is looked at. -/
theorem haltedCoreRefusesEveryCall : Obligations.HaltedCoreRefusesEveryCall :=
  fun _ _ => step_of_halted

/-! ### Fatal errors -/

/-- Executing Unrecognized is fatal with its word (40_execution_cycle.md R138). -/
theorem exec_unrecognized (raw : Word) (s : State) :
    exec (.unrecognized raw) s = .next (s.haltedBy (.unrecognized raw)) := rfl

@[simp] theorem fetchWord_beginCall (s : State) : fetchWord s.beginCall = fetchWord s := rfl

/-- A fatal execute phase ends the step: there is no advance after it. -/
theorem instructionStep_of_fatal {s : State} {f : Fatal} (hpc : s.pc.toNat + 1 ≤ 0xFFF)
    (h : exec (decode (fetchWord s)) s = .next (s.haltedBy f)) :
    instructionStep s = .next (s.haltedBy f) := by
  rw [instructionStep_of_fetch hpc h, State.advance_halted rfl]

/-- Settles O8: an illegal word is of no row, and executing Unrecognized is fatal. -/
theorem unrecognizedIsFatal : Obligations.UnrecognizedIsFatal := by
  intro raw s hraw
  refine ⟨decode_of_illegalWord hraw, exec_unrecognized raw s, fun hrun hcall hpc hfetch => ?_⟩
  rw [step_of_nextCall_step hrun hcall]
  refine instructionStep_of_fatal (s := s.beginCall) hpc ?_
  rw [fetchWord_beginCall, hfetch, decode_of_illegalWord hraw, exec_unrecognized]

theorem status_not_written (i : Instr) : .status ∉ partsWritten i := by
  cases i <;> simp [partsWritten]

/-- No instruction writes the status but by a fatal error, which writes nothing else. -/
theorem exec_haltedBy_or_status_kept {i : Instr} {s t : State} (h : exec i s = .next t) :
    (∃ f, t = s.haltedBy f) ∨ t.status = s.status :=
  (exec_frame h).imp_right fun hframe =>
    keepsAllBut_of_eq_withPartsOf hframe .status (status_not_written i)

/-- An execute phase that starts Running and ends Halted changes the status only. -/
theorem exec_eq_haltedBy {i : Instr} {s t : State} {f : Fatal} (hrun : s.status = .running)
    (h : exec i s = .next t) (ht : t.status = .halted f) : t = s.haltedBy f := by
  obtain ⟨g, rfl⟩ | hkept := exec_haltedBy_or_status_kept h
  · obtain rfl : g = f := Status.halted.inj ht
    rfl
  · rw [ht, hrun] at hkept
    cases hkept

@[simp] theorem State.advance_status (s : State) : s.advance.status = s.status := by
  unfold State.advance
  split <;> rfl

theorem instructionStep_eq_haltedBy {s t : State} {f : Fatal} (hrun : s.status = .running)
    (h : instructionStep s = .next t) (ht : t.status = .halted f) : t = s.haltedBy f := by
  obtain ⟨_, rfl⟩ | ⟨_, u, hu, rfl⟩ := instructionStep_cases h
  · obtain rfl := Status.halted.inj ht
    rfl
  · rw [State.advance_status] at ht
    rw [State.advance_halted ht]
    exact exec_eq_haltedBy hrun hu ht

/-- Settles O9: of the three transactions only the instruction step can halt the core; it is fatal
at the fetch or in the execute phase, and the advance leaves a halted core alone. -/
theorem fatalChangesOnlyTheStatus : Obligations.FatalChangesOnlyTheStatus := by
  refine ⟨fun i s t f => exec_eq_haltedBy, fun s t f h ht => ?_⟩
  obtain ⟨hrun, ⟨_, hstep⟩ | ⟨_, rfl⟩ | ⟨image, _, _, rfl⟩⟩ := step_cases h
  · exact instructionStep_eq_haltedBy hrun hstep ht
  · cases hrun.symm.trans ht
  · cases hrun.symm.trans ht

/-! ### The status Running -/

theorem exists_next_guardRange (raw : Word) (count : Nat) (effect : State → State) (s : State) :
    ∃ t, guardRange raw count effect s = .next t := by
  unfold guardRange
  split <;> exact ⟨_, rfl⟩

theorem exists_next_withKey (raw : Word) (x : Reg) (effect : Fin 16 → State → State)
    (s : State) : ∃ t, withKey raw x effect s = .next t := by
  unfold withKey
  split <;> exact ⟨_, rfl⟩

/-- The execute phase gives a next state for every instruction in every state. -/
theorem exists_next_exec (i : Instr) (s : State) : ∃ t, exec i s = .next t := by
  cases i with
  | ret =>
    cases hs : s.stack with
    | nil => exact ⟨_, exec_ret_of_nil hs⟩
    | cons entry rest => exact ⟨_, exec_ret_of_cons hs⟩
  | call nnn =>
    cases hs : s.stackFull with
    | true => exact ⟨_, exec_call_of_full nnn hs⟩
    | false => exact ⟨_, exec_call_of_room nnn hs⟩
  | spriteDigit x =>
    by_cases hd : s.getV x > 9
    · exact ⟨_, exec_spriteDigit_of_gt hd⟩
    · exact ⟨_, exec_spriteDigit_of_le hd⟩
  | draw x y n | storeBCD x | storeRegisters x | readRegisters x =>
    exact exists_next_guardRange _ _ _ s
  | skipPressed x | skipNotPressed x | waitKey x => exact exists_next_withKey _ _ _ s
  | _ => exact ⟨_, rfl⟩

theorem exists_next_instructionStep (s : State) : ∃ t, instructionStep s = .next t := by
  by_cases hpc : s.pc.toNat + 1 > 0xFFF
  · exact ⟨_, instructionStep_of_no_fetch hpc⟩
  · obtain ⟨u, hu⟩ := exists_next_exec (decode (fetchWord s)) s
    exact ⟨_, instructionStep_of_fetch (Nat.le_of_not_gt hpc) hu⟩

theorem step_of_nextCall_tick {s : State} (hrun : s.status = .running)
    (hcall : s.nextCall = .tick) : step s = .next (tickTimer s.beginCall) := by
  unfold step transact
  rw [hrun, hcall]

theorem step_of_nextCall_load {s : State} {image : List Byte} (hrun : s.status = .running)
    (hcall : s.nextCall = .load image) (hawait : s.awaitingImage = true) :
    step s = .next (loadImage image s.beginCall) := by
  unfold step transact
  rw [hrun, hcall]
  exact if_pos hawait

/-- Settles O10, call by call. -/
theorem runningCoreAlwaysMoves : Obligations.RunningCoreAlwaysMoves := by
  intro s hrun hload
  cases hcall : s.nextCall with
  | step =>
    rw [step_of_nextCall_step hrun hcall]
    exact exists_next_instructionStep s.beginCall
  | tick => exact ⟨_, step_of_nextCall_tick hrun hcall⟩
  | load image => exact ⟨_, step_of_nextCall_load hrun hcall (hload image hcall)⟩

end Sys2Proof.Machine
end

section
/-! PROOFS. The capability calls of each instruction: what each operation that records events adds to them, and that the other instructions add nothing (40_execution_cycle.md R140). -/

namespace Sys2Proof.Machine

/-- ClearScreen records one notification of false for each of the 2048 cells
(41_display.md R151). -/
theorem clearGrid_makes_calls (s : State) :
    ∃ new, (clearGrid s).events = s.events ++ new ∧ eventsAllowed .clearScreen new := by
  refine ⟨(clearOrder s.freeCount).map fun c => .notify c.1 c.2 false, rfl, ?_, fun e he => ?_⟩
  · rw [List.length_map, (clearOrder_perm s.freeCount).length_eq, gridCells_length]
  · obtain ⟨c, _, rfl⟩ := List.mem_map.1 he
    exact ⟨c.1, c.2, rfl⟩

/-- A Draw's rows record notifications only (41_display.md R152). -/
theorem drawRows_makes_calls (x y n : Fin 16) (px py count : Nat) (s : State) :
    ∃ new, (drawRows px py count s).events = s.events ++ new ∧
      eventsAllowed (.draw x y n) new := by
  rw [drawRows_eq_toggles, events_toggles _ (spriteRows_nodup px py count s.byteAt)]
  refine ⟨_, rfl, fun e he => ?_⟩
  obtain ⟨c, _, rfl⟩ := List.mem_map.1 he
  exact ⟨_, _, _, rfl⟩

theorem keyPressed_events (k : Fin 16) (s : State) :
    (keyPressed k s).2.events = s.events ++ [.keyQuery k (keyPressed k s).1] := by
  rw [keyPressed_spec]

theorem randomByte_events (s : State) :
    (randomByte s).2.events = s.events ++ [.randomRequest (randomByte s).1] := by
  rw [randomByte_spec]

/-- An instruction that is not listed with the events makes no call. -/
theorem exec_events_of_not_written {i : Instr} {s t : State} (h : exec i s = .next t)
    (hi : .events ∉ partsWritten i) : t.events = s.events := by
  obtain ⟨f, rfl⟩ | hframe := exec_frame h
  · rfl
  · exact keepsAllBut_of_eq_withPartsOf hframe .events hi

/-- Settles O52: the instructions that record events do so by one operation each, and the frame of
the others keeps the events. -/
theorem eachInstructionMakesItsCalls : Obligations.EachInstructionMakesItsCalls := by
  intro i s t _ h ht
  cases i with
  | clearScreen =>
    obtain rfl := Host.Outcome.next.inj h
    exact clearGrid_makes_calls s
  | draw x y n =>
    obtain ⟨a, _, rfl⟩ | ⟨_, rfl⟩ := guardRange_cases h
    · cases ht
    · exact drawRows_makes_calls x y n _ _ _ s
  | skipPressed x | skipNotPressed x | waitKey x =>
    obtain ⟨_, rfl⟩ | ⟨k, _, rfl⟩ := withKey_cases h
    · cases ht
    · exact ⟨_, keyPressed_events k s, k, _, rfl⟩
  | rand x kk =>
    obtain rfl := Host.Outcome.next.inj h
    exact ⟨_, randomByte_events s, _, rfl⟩
  | _ =>
    refine ⟨[], ?_, rfl⟩
    rw [List.append_nil]
    exact exec_events_of_not_written h (by simp [partsWritten])

end Sys2Proof.Machine
end

section
/-! PROOFS. The display: what a PixelWrite, a ClearScreen and a Draw do to the cells of the framebuffer and to the notifications, and when a Draw is fatal (41_display.md R150-R152). -/

namespace Sys2Proof.Machine

/-! ### PixelWrite -/

/-- Settles O38: a PixelWrite inside the grid sets one cell, records it, and has that as its
frame. -/
theorem pixelWriteTogglesOrClears : Obligations.PixelWriteTogglesOrClears := by
  intro px py f s
  refine ⟨fun h => pixelWrite_outside f s (by omega), ?_⟩
  rintro x y rfl rfl
  have hcell := pixel_pixelWrite x.val y.val f s
  refine ⟨?_, fun x' y' hne => ?_, ?_, keepsAllBut_of_eq_withPartsOf (pixelWrite_frame _ _ f s)⟩
  · rw [hcell, if_pos ⟨rfl, rfl⟩]
  · rw [hcell, if_neg (by omega)]
  · rw [hcell, if_pos ⟨rfl, rfl⟩, pixelWrite_inside f s x.isLt y.isLt, State.log_events]

/-! ### ClearScreen -/

/-- Forced PixelWrites, one after another, record a notification of false for each cell and do to
the framebuffer what those notifications do to a sink's screen. -/
theorem forcedPixelWrites_eq (cells : List (Fin 64 × Fin 32)) (s : State) :
    cells.foldl (fun u c => pixelWrite c.1.val c.2.val true u) s =
      { s with
        fb := (cells.map fun c => Event.notify c.1 c.2 false).foldl showEvent s.fb
        events := s.events ++ cells.map fun c => .notify c.1 c.2 false } := by
  induction cells generalizing s with
  | nil => simp
  | cons c rest ih =>
    rw [List.foldl_cons, ih, pixelWrite_inside true s c.1.isLt c.2.isLt]
    simp [State.log, showEvent]

/-- Clearing every cell leaves the blank framebuffer, whatever the order and the cells before. -/
theorem foldl_showEvent_eq_blank {cells : List (Fin 64 × Fin 32)} (hall : ∀ c, c ∈ cells)
    (screen : Screen) :
    (cells.map fun c => Event.notify c.1 c.2 false).foldl showEvent screen = Screen.blank :=
  Screen.ext_cells fun x y => by
    rw [getCell_clears, if_pos (hall (x, y)), Screen.getCell_blank]

theorem mem_clearOrder (k : Nat) (c : Fin 64 × Fin 32) : c ∈ clearOrder k :=
  (clearOrder_perm k).mem_iff.2 (mem_gridCells c)

/-- ClearScreen is a forced PixelWrite on each cell in its order, but for the free value that the
order takes (41_display.md R151). -/
theorem clearGrid_eq_forcedPixelWrites (s : State) :
    { clearGrid s with freeCount := s.freeCount } =
      (clearOrder s.freeCount).foldl (fun u c => pixelWrite c.1.val c.2.val true u) s := by
  rw [forcedPixelWrites_eq, foldl_showEvent_eq_blank (mem_clearOrder s.freeCount)]
  rfl

/-- Settles O39: the order is a rearrangement of the list of all cells. -/
theorem clearScreenClearsEveryCell : Obligations.ClearScreenClearsEveryCell := by
  refine ⟨rfl, fun s => ⟨clearGrid s, clearOrder s.freeCount, rfl, ?_, ?_, mem_clearOrder _, rfl,
    Screen.getCell_blank, clearGrid_eq_forcedPixelWrites s, keepsAllBut_of_eq_withPartsOf rfl⟩⟩
  · exact (clearOrder_perm s.freeCount).nodup_iff.2 gridCells_nodup
  · rw [(clearOrder_perm s.freeCount).length_eq, gridCells_length]

/-! ### The rows of a Draw -/

/-- The rows of a Draw toggle each cell under a 1 bit of theirs (41_display.md R152). -/
theorem pixel_drawRows (px py count : Nat) (s : State) (cx : Fin 64) (cy : Fin 32) :
    (drawRows px py count s).pixel cx cy =
      if px ≤ cx.val ∧ cx.val < px + 8 ∧ py ≤ cy.val ∧ cy.val < py + count ∧
          spriteBit (s.byteAt (cy.val - py)) (cx.val - px) = true
      then !s.pixel cx cy else s.pixel cx cy := by
  rw [drawRows_eq_toggles, pixel_toggles _ (spriteRows_nodup px py count s.byteAt)]
  refine if_congr ?_ rfl rfl
  simp only [List.mem_flatMap, List.mem_range, mem_rowCells]
  constructor
  · rintro ⟨row, hrow, hy, hle, hlt, hbit⟩
    obtain rfl : row = cy.val - py := by omega
    exact ⟨hle, hlt, by omega, by omega, hbit⟩
  · rintro ⟨hle, hlt, hpy, hcount, hbit⟩
    exact ⟨cy.val - py, by omega, by omega, hle, hlt, hbit⟩

/-- The cells of a sprite's rows that lie in the grid are the statements' `spriteCells`. -/
theorem spriteRows_in_grid (px py count : Nat) (byteOf : Nat → Byte) :
    (((List.range count).flatMap fun row => rowCells px (py + row) (byteOf row)).filter
        fun c => decide (c.1 < 64) && decide (c.2 < 32)).map
      (fun c => (Fin.ofNat 64 c.1, Fin.ofNat 32 c.2)) = spriteCells px py count byteOf := by
  unfold spriteCells rowCells
  simp only [List.filter_flatMap, List.map_flatMap, List.filter_map, List.map_map,
    List.filter_filter, Function.comp_def, Bool.and_comm, Bool.and_assoc]

/-- The rows of a Draw notify each cell under a 1 bit in the grid, with its new value
(41_display.md R152). -/
theorem events_drawRows (px py count : Nat) (s : State) :
    (drawRows px py count s).events = s.events ++
      (spriteCells px py count s.byteAt).map fun c => .notify c.1 c.2 (!s.pixel c.1 c.2) := by
  rw [drawRows_eq_toggles, events_toggles _ (spriteRows_nodup px py count s.byteAt),
    ← spriteRows_in_grid, List.map_map]
  rfl

@[simp] theorem drawRows_iReg (px py count : Nat) (s : State) :
    (drawRows px py count s).iReg = s.iReg := by
  rw [drawRows_frame]
  rfl

@[simp] theorem drawRows_getV (px py count : Nat) (s : State) (r : Reg) :
    (drawRows px py count s).getV r = s.getV r := by
  rw [drawRows_frame]
  rfl

@[simp] theorem drawRows_byteAt (px py count : Nat) (s : State) (k : Nat) :
    (drawRows px py count s).byteAt k = s.byteAt k := by
  rw [drawRows_frame]
  rfl

/-- Rows drawn twice restore the framebuffer: a Draw writes neither the bytes nor the origin that
choose its cells. -/
theorem pixel_drawRows_twice (px py count : Nat) (s : State) (cx : Fin 64) (cy : Fin 32) :
    (drawRows px py count (drawRows px py count s)).pixel cx cy = s.pixel cx cy := by
  rw [pixel_drawRows, drawRows_byteAt, pixel_drawRows]
  split <;> simp

/-! ### Draw -/

theorem encode_draw (x y n : Fin 16) : encode (.draw x y n) = opXYN 0xD000 x y n := by
  rw [← decode_draw (opXYN_toNat (by decide) x y n), encode_decode]

theorem drawOriginY_lt (y : Reg) (s : State) : drawOriginY y s < 32 :=
  Nat.mod_lt _ (by decide)

/-- A row is read when it is of the sprite and not past the first row below the grid. -/
theorem lt_drawRowCount_iff {py n row : Nat} (hpy : py < 32) :
    row < drawRowCount py n ↔ row < n ∧ py + row ≤ 32 := by
  unfold drawRowCount
  omega

/-- Inside the grid, stopping below it makes no difference. -/
theorem lt_add_drawRowCount_iff {py n cy : Nat} (hcy : cy < 32) :
    cy < py + drawRowCount py n ↔ cy < py + n := by
  unfold drawRowCount
  omega

/-- A Draw whose rows lie in memory draws them (41_display.md R152). -/
theorem exec_draw_of_inside {x y n : Fin 16} {s : State}
    (h : ∀ row, row < drawRowCount (drawOriginY y s) n.val → s.addressOf row ≤ 0xFFF) :
    exec (.draw x y n) s = .next (drawRows (drawOriginX x s) (drawOriginY y s)
      (drawRowCount (drawOriginY y s) n.val) s) := by
  refine guardRange_inside (Classical.or_iff_not_imp_left.2 fun hcount => ?_)
  have hlast := h (drawRowCount (drawOriginY y s) n.val - 1) (by omega)
  unfold State.addressOf at hlast
  unfold memSize
  omega

/-- A Draw is fatal at the lowest address it would read outside memory (41_display.md R152). -/
theorem exec_draw_of_outside {x y n : Fin 16} {s : State} {row : Nat}
    (hrow : row < drawRowCount (drawOriginY y s) n.val) (hout : s.addressOf row > 0xFFF)
    (hin : ∀ r, r < row → s.addressOf r ≤ 0xFFF) :
    exec (.draw x y n) s =
      .next (s.haltedBy (.memoryOutOfRange (opXYN 0xD000 x y n) (s.addressOf row))) := by
  have hprev := hin (row - 1)
  unfold State.addressOf at hout hprev
  have hguard : ¬ (drawRowCount (drawOriginY y s) n.val = 0 ∨
      s.iReg.toNat + drawRowCount (drawOriginY y s) n.val ≤ memSize) := by
    unfold memSize
    omega
  have haddr : max s.iReg.toNat memSize = s.addressOf row := by
    unfold memSize State.addressOf
    omega
  rw [← encode_draw, ← haddr]
  exact guardRange_outside hguard

/-- Settles O40: the rows that a Draw does not read have no cell in the grid to toggle. -/
theorem drawTogglesTheSprite : Obligations.DrawTogglesTheSprite := by
  intro x y n s
  refine ⟨decode_draw (opXYN_toNat (by decide) x y n), fun hin => ?_,
    fun row hrow hrow' => exec_draw_of_outside
      ((lt_drawRowCount_iff (drawOriginY_lt y s)).2 ⟨hrow, hrow'⟩)⟩
  refine ⟨_, exec_draw_of_inside fun row hrow => ?_, fun cx cy => ?_, events_drawRows _ _ _ s,
    keepsAllBut_of_eq_withPartsOf (drawRows_frame _ _ _ s)⟩
  · obtain ⟨hn, hgrid⟩ := (lt_drawRowCount_iff (drawOriginY_lt y s)).1 hrow
    exact hin row hn hgrid
  · simp only [pixel_drawRows, lt_add_drawRowCount_iff cy.isLt]
    rfl

/-- Settles O41: the first Draw leaves all that the second reads, so both complete or both are
fatal. -/
theorem drawTwiceRestores : Obligations.DrawTwiceRestores := by
  intro x y n s t u hst htu cx cy
  obtain ⟨a, hs, rfl⟩ | ⟨hs, rfl⟩ := guardRange_cases hst
  · obtain ⟨b, _, rfl⟩ | ⟨ht, _⟩ := guardRange_cases htu
    · rfl
    · cases hs.symm.trans ht
  · obtain ⟨b, ht, _⟩ | ⟨_, rfl⟩ := guardRange_cases htu
    · simp only [drawOriginY, drawRows_iReg, drawRows_getV] at hs ht
      cases hs.symm.trans ht
    · simp only [drawOriginX, drawOriginY, drawRows_getV, pixel_drawRows_twice]

end Sys2Proof.Machine
end

section
/-! PROOFS. Control flow: where the pc goes after a jump, a Call, a Return and a skip, what becomes of the stack, and that nothing else changes (42_control_flow.md R160-R167). -/

namespace Sys2Proof.Machine

/-! ### Jumps -/

/-- The compensating offset over the naturals, modulo 65536 (40_execution_cycle.md R135). -/
theorem State.aim_pc_toNat (s : State) (target : Word) :
    (s.aim target).pc.toNat = (target.toNat + 65536 - 2) % 65536 := by
  rw [State.aim_pc]
  bv_omega

theorem keepsAllBut_aim (s : State) (target : Word) : KeepsAllBut [.pc] s (s.aim target) :=
  keepsAllBut_of_eq_withPartsOf rfl

theorem exec_jump (nnn : Addr12) (s : State) :
    exec (.jump nnn) s = .next (s.aim (zext16 nnn)) := rfl

theorem exec_jumpAdd (nnn : Addr12) (s : State) :
    exec (.jumpAdd nnn) s = .next (s.aim (zext16 nnn + (s.getV 0).setWidth 16)) := rfl

/-- A 12-bit address and a byte add up without a carry out of 16 bits. -/
theorem zext16_add_byte_toNat (nnn : Addr12) (b : Byte) :
    (zext16 nnn + b.setWidth 16).toNat = nnn.toNat + b.toNat := by
  have := nnn.isLt
  have := b.isLt
  have hb : (b.setWidth 16).toNat = b.toNat := BitVec.toNat_setWidth_of_le (by decide)
  rw [BitVec.toNat_add_of_lt (by rw [zext16_toNat, hb]; omega), zext16_toNat, hb]

/-- Settles O12: a jump aims at its operand. -/
theorem jumpReachesItsTarget : Obligations.JumpReachesItsTarget := by
  intro nnn s
  refine ⟨decode_jump (opNNN_toNat (by decide) nnn), _, exec_jump nnn s, ?_, ?_,
    keepsAllBut_aim s _⟩
  · rw [State.aim_pc_toNat, zext16_toNat]
  · rw [State.aim_pc_add_two, zext16_toNat]

/-- Settles O18: the jump aims at a sum below 65536. -/
theorem jumpAddAddsV0 : Obligations.JumpAddAddsV0 := by
  intro nnn s
  refine ⟨decode_jumpAdd (opNNN_toNat (by decide) nnn), _, exec_jumpAdd nnn s, ?_, ?_,
    keepsAllBut_aim s _⟩
  · rw [State.aim_pc_toNat, zext16_add_byte_toNat]
  · rw [State.aim_pc_add_two, zext16_add_byte_toNat]

/-! ### Call and Return -/

theorem stackFull_eq_false_iff (s : State) :
    s.stackFull = false ↔ s.stackLimit.depth ≠ some s.stack.length := by
  rw [← Bool.not_eq_true, stackFull_iff]

theorem encode_call (nnn : Addr12) : encode (.call nnn) = opNNN 0x2000 nnn := by
  rw [← decode_call (opNNN_toNat (by decide) nnn), encode_decode]

/-- Settles O13: a Call aims at its operand as a jump does, and pushes the pc from before. -/
theorem callPushesItsOwnAddress : Obligations.CallPushesItsOwnAddress := by
  intro nnn s
  refine ⟨decode_call (opNNN_toNat (by decide) nnn), fun hroom => ?_, fun hfull => ?_⟩
  · refine ⟨_, exec_call_of_room nnn ((stackFull_eq_false_iff s).2 hroom), rfl, ?_, ?_,
      keepsAllBut_of_eq_withPartsOf rfl⟩
    · rw [State.aim_pc_toNat, zext16_toNat]
    · rw [State.aim_pc_add_two, zext16_toNat]
  · rw [exec_call_of_full nnn ((stackFull_iff s).2 hfull), encode_call]

/-- Settles O14: the two cases are those of the stack. -/
theorem returnPopsIntoPc : Obligations.ReturnPopsIntoPc := by
  refine ⟨rfl, fun s => ⟨fun entry rest hs => ?_, exec_ret_of_nil⟩⟩
  exact ⟨_, exec_ret_of_cons hs, rfl, rfl, keepsAllBut_of_eq_withPartsOf rfl⟩

/-- Settles O15: the entry on top for the Return is the one the Call pushed, its own address. -/
theorem returnResumesAfterTheCall : Obligations.ReturnResumesAfterTheCall := by
  intro nnn s t u p hroom hcall hret
  obtain rfl := next_unique hcall (exec_call_of_room nnn ((stackFull_eq_false_iff s).2 hroom))
  obtain rfl := next_unique hret (exec_ret_of_cons rfl)
  exact ⟨rfl, rfl, rfl⟩

/-! ### Skips -/

theorem keepsAllBut_skipIf (s : State) (c : Bool) : KeepsAllBut [.pc] s (s.skipIf c) :=
  keepsAllBut_of_eq_withPartsOf rfl

/-- A skip on equality (40_execution_cycle.md R136). -/
theorem State.skipIf_beq_pc (s : State) (a b : Byte) :
    (s.skipIf (a == b)).pc = if a = b then s.pc + 2 else s.pc := by
  simp only [State.skipIf_pc, beq_iff_eq]

/-- A skip on inequality, its cases in the order of the equality. -/
theorem State.skipIf_bne_pc (s : State) (a b : Byte) :
    (s.skipIf (a != b)).pc = if a = b then s.pc else s.pc + 2 := by
  simp only [State.skipIf_pc, bne_iff_ne, ite_not]

theorem exec_skipEq (x : Reg) (kk : Byte) (s : State) :
    exec (.skipEq x kk) s = .next (s.skipIf (s.getV x == kk)) := rfl

theorem exec_skipNe (x : Reg) (kk : Byte) (s : State) :
    exec (.skipNe x kk) s = .next (s.skipIf (s.getV x != kk)) := rfl

theorem exec_skipEqReg (x y : Reg) (s : State) :
    exec (.skipEqReg x y) s = .next (s.skipIf (s.getV x == s.getV y)) := rfl

theorem exec_skipNeReg (x y : Reg) (s : State) :
    exec (.skipNeReg x y) s = .next (s.skipIf (s.getV x != s.getV y)) := rfl

/-- Settles O16: V[x] is compared with the operand. -/
theorem skipsOnAnImmediate : Obligations.SkipsOnAnImmediate := by
  intro x kk s
  refine ⟨decode_skipEq (opXKK_toNat (by decide) x kk),
    decode_skipNe (opXKK_toNat (by decide) x kk), ?_, ?_⟩
  · exact ⟨_, exec_skipEq x kk s, s.skipIf_beq_pc _ _, keepsAllBut_skipIf s _⟩
  · exact ⟨_, exec_skipNe x kk s, s.skipIf_bne_pc _ _, keepsAllBut_skipIf s _⟩

/-- Settles O17: V[x] is compared with V[y], which is V[x] itself when x = y. -/
theorem skipsOnTwoRegisters : Obligations.SkipsOnTwoRegisters := by
  intro x y s
  refine ⟨decode_skipEqReg (opXY_toNat (by decide) x y),
    decode_skipNeReg (opXY_toNat (by decide) x y), ?_, ?_⟩
  · exact ⟨_, exec_skipEqReg x y s, s.skipIf_beq_pc _ _, keepsAllBut_skipIf s _⟩
  · exact ⟨_, exec_skipNeReg x y s, s.skipIf_bne_pc _ _, keepsAllBut_skipIf s _⟩

end Sys2Proof.Machine
end

section
/-! PROOFS. Registers and ALU: the one register the loads, AddImm, Move and the logic write, the sum of Add, the flag and result of Sub, Shr, Subn and Shl under each FLAG_ALIAS, and the byte of Rand (43_alu.md R170-R182). -/

namespace Sys2Proof.Machine

/-! ### One register written -/

/-- A register write gives the register its byte and keeps the others and every other part. -/
theorem setV_writes_one (s : State) (x : Reg) (b : Byte) :
    (s.setV x b).getV x = b ∧ RegsKeptBut [x] s (s.setV x b) ∧ KeepsAllBut [.regs] s (s.setV x b) :=
  ⟨s.getV_setV_self x b, fun _ hr => s.getV_setV_ne b (List.ne_of_not_mem_cons hr),
    keepsAllBut_of_eq_withPartsOf rfl⟩

theorem exec_loadImm (x : Reg) (kk : Byte) (s : State) :
    exec (.loadImm x kk) s = .next (s.setV x kk) := rfl

theorem exec_addImm (x : Reg) (kk : Byte) (s : State) :
    exec (.addImm x kk) s = .next (s.setV x (s.getV x + kk)) := rfl

theorem exec_move (x y : Reg) (s : State) :
    exec (.move x y) s = .next (s.setV x (s.getV y)) := rfl

theorem exec_or (x y : Reg) (s : State) :
    exec (.or x y) s = .next (s.setV x (s.getV x ||| s.getV y)) := rfl

theorem exec_and (x y : Reg) (s : State) :
    exec (.and x y) s = .next (s.setV x (s.getV x &&& s.getV y)) := rfl

theorem exec_xor (x y : Reg) (s : State) :
    exec (.xor x y) s = .next (s.setV x (s.getV x ^^^ s.getV y)) := rfl

/-- Settles O19: each is one register write, of the operand or of the wrapped sum. -/
theorem immediatesLoadAndAdd : Obligations.ImmediatesLoadAndAdd := by
  intro x kk s
  obtain ⟨hsum, hframe⟩ := setV_writes_one s x (s.getV x + kk)
  refine ⟨decode_loadImm (opXKK_toNat (by decide) x kk),
    decode_addImm (opXKK_toNat (by decide) x kk), ⟨_, exec_loadImm x kk s, setV_writes_one s x kk⟩,
    _, exec_addImm x kk s, ?_, hframe⟩
  rw [hsum, BitVec.toNat_add]

/-- Settles O20: each is one register write. -/
theorem moveAndLogicWriteOneRegister : Obligations.MoveAndLogicWriteOneRegister := by
  intro x y s
  refine ⟨⟨decode_move (opXY_toNat (by decide) x y), _, exec_move x y s, ?_⟩,
    ⟨decode_or (opXY_toNat (by decide) x y), _, exec_or x y s, ?_⟩,
    ⟨decode_and (opXY_toNat (by decide) x y), _, exec_and x y s, ?_⟩,
    ⟨decode_xor (opXY_toNat (by decide) x y), _, exec_xor x y s, ?_⟩⟩
  all_goals exact setV_writes_one s x _

/-! ### Add -/

theorem exec_add (x y : Reg) (s : State) : exec (.add x y) s =
    .next ((s.setV x (s.getV x + s.getV y)).setV regF (s.getV x + s.getV y)) := rfl

/-- One byte written to V[x] and to VF is in both, also where they are one register. -/
theorem getV_setV_twice (s : State) (x r : Reg) (b : Byte) :
    ((s.setV x b).setV r b).getV x = b := by
  rw [State.getV_setV, State.getV_setV_self, ite_self]

/-- Settles O21: both writes are of the wrapped sum. -/
theorem addWritesTheSumTwice : Obligations.AddWritesTheSumTwice := by
  intro x y s
  have hadd := exec_add x y s
  refine ⟨decode_add (opXY_toNat (by decide) x y), _, hadd, ?_, ?_, fun r hr => ?_,
    keepsAllBut_of_eq_withPartsOf rfl⟩
  · rw [getV_setV_twice, BitVec.toNat_add]
  · exact (congrArg BitVec.toNat (State.getV_setV_self _ regF _)).trans (BitVec.toNat_add _ _)
  · exact exec_getV_of_not_written hadd (by simpa [regsWritten] using hr)

/-! ### The two writes under FLAG_ALIAS -/

theorem State.setV_comm (s : State) {x r : Reg} (a b : Byte) (h : x ≠ r) :
    (s.setV x a).setV r b = (s.setV r b).setV x a := by
  simp only [State.setV, Vector.set_comm _ _ (Fin.val_ne_of_ne h)]

/-- V[y] as the result reads it: where VF gets the flag first, from after that write. -/
def resultOperand (f : Byte) (y : Reg) (s : State) : Byte :=
  match s.flagAlias with
  | .sequential => (s.setV regF f).getV y
  | .snapshotListed => s.getV y
  | .flagLast => s.getV y

theorem resultOperand_of_ne (f : Byte) {y : Reg} (s : State) (hy : y ≠ regF) :
    resultOperand f y s = s.getV y := by
  have hseq : (s.setV regF f).getV y = s.getV y := s.getV_setV_ne f hy
  unfold resultOperand
  cases s.flagAlias with
  | sequential => exact hseq
  | snapshotListed | flagLast => rfl

section
variable (flag result : Byte → Byte → Byte) (s : State)

/-- Where x is not F the two writes are of two registers, so their order does not matter
(43_alu.md R170). -/
theorem writeFlagged_of_ne {x : Reg} (y : Reg) (hx : x ≠ regF) :
    writeFlagged flag result x y s =
      (s.setV regF (flag (s.getV x) (s.getV y))).setV x
        (result (s.getV x) (resultOperand (flag (s.getV x) (s.getV y)) y s)) := by
  unfold writeFlagged resultOperand
  cases s.flagAlias with
  | sequential => simp only [State.getV_setV_ne _ _ hx]
  | snapshotListed => rfl
  | flagLast => exact s.setV_comm _ _ hx

theorem getV_regF_writeFlagged_of_ne {x : Reg} (y : Reg) (hx : x ≠ regF) :
    (writeFlagged flag result x y s).getV regF = flag (s.getV x) (s.getV y) := by
  rw [writeFlagged_of_ne flag result s y hx, State.getV_setV_ne _ _ hx.symm, State.getV_setV_self]

theorem getV_writeFlagged_of_ne {x : Reg} (y : Reg) (hx : x ≠ regF) :
    (writeFlagged flag result x y s).getV x =
      result (s.getV x) (resultOperand (flag (s.getV x) (s.getV y)) y s) := by
  rw [writeFlagged_of_ne flag result s y hx, State.getV_setV_self]

/-- Where x is F the second write is the one that stays (43_alu.md R170). -/
theorem getV_regF_writeFlagged_regF (y : Reg) :
    (writeFlagged flag result regF y s).getV regF =
      match s.flagAlias with
      | .sequential => result (flag (s.getV regF) (s.getV y))
          (resultOperand (flag (s.getV regF) (s.getV y)) y s)
      | .snapshotListed => result (s.getV regF) (s.getV y)
      | .flagLast => flag (s.getV regF) (s.getV y) := by
  unfold writeFlagged resultOperand
  cases s.flagAlias with
  | sequential => simp only [State.getV_setV_self]
  | snapshotListed | flagLast => exact State.getV_setV_self _ _ _

theorem regsKeptBut_writeFlagged (x y : Reg) :
    RegsKeptBut [x, 15] s (writeFlagged flag result x y s) := by
  intro r hr
  obtain ⟨hx, hf⟩ : r ≠ x ∧ r ≠ 15 := by simpa using hr
  exact writeFlagged_other flag result x y s hx hf

theorem keepsAllBut_writeFlagged (x y : Reg) :
    KeepsAllBut [.regs] s (writeFlagged flag result x y s) :=
  keepsAllBut_of_eq_withPartsOf (writeFlagged_frame flag result x y s)

end

/-! ### Sub and Subn -/

theorem subFlag_eq (a b : Byte) : subFlag a b = gtFlag a b := by
  simp only [subFlag, flagOf, gtFlag, decide_eq_true_eq, gt_iff_lt, BitVec.lt_def]

theorem subnFlag_eq (a b : Byte) : subnFlag a b = gtFlag b a := subFlag_eq b a

theorem subResult_eq (a b : Byte) : subResult a b = subMod a b := by
  apply BitVec.eq_of_toNat_eq
  simp only [subResult, subMod, BitVec.toNat_sub, BitVec.toNat_ofNat]
  omega

theorem subnResult_eq (a b : Byte) : subnResult a b = subMod b a := subResult_eq b a

theorem gtFlag_self (a : Byte) : gtFlag a a = 0 := if_neg (lt_irrefl _)

theorem subMod_self (a : Byte) : subMod a a = 0 := by
  rw [← subResult_eq]
  exact BitVec.sub_self a

theorem exec_sub (x y : Reg) (s : State) :
    exec (.sub x y) s = .next (writeFlagged gtFlag subMod x y s) := by
  rw [← funext₂ subFlag_eq, ← funext₂ subResult_eq]
  rfl

theorem exec_subn (x y : Reg) (s : State) : exec (.subn x y) s =
    .next (writeFlagged (fun a b => gtFlag b a) (fun a b => subMod b a) x y s) := by
  rw [← funext₂ subnFlag_eq, ← funext₂ subnResult_eq]
  rfl

/-- The cases of the tables of R178 and R180 for a flag and a result of two operands. -/
def TwoOperandTable (flag result : Byte → Byte → Byte) (x y : Reg) (s t : State) : Prop :=
  let a := s.getV x
  let b := s.getV y
  (x ≠ 15 → y ≠ 15 → t.getV 15 = flag a b ∧ t.getV x = result a b) ∧
  (x = 15 → y ≠ 15 → t.getV 15 =
    match s.flagAlias with
    | .sequential => result (flag a b) b
    | .snapshotListed => result a b
    | .flagLast => flag a b) ∧
  (x ≠ 15 → y = 15 → t.getV 15 = flag a b ∧ t.getV x =
    match s.flagAlias with
    | .sequential => result a (flag a b)
    | .snapshotListed => result a b
    | .flagLast => result a b) ∧
  (x = 15 → y = 15 → t.getV 15 = 0) ∧
  (x = y → x ≠ 15 → t.getV 15 = 0 ∧ t.getV x = 0)

/-- The flag write gives the values of the table, where equal operands give 0 twice. -/
theorem twoOperandTable_writeFlagged {flag result : Byte → Byte → Byte}
    (hflag : ∀ a, flag a a = 0) (hresult : ∀ a, result a a = 0) (x y : Reg) (s : State) :
    TwoOperandTable flag result x y s (writeFlagged flag result x y s) := by
  have hf := getV_regF_writeFlagged_of_ne flag result s y (x := x)
  have hr := getV_writeFlagged_of_ne flag result s y (x := x)
  refine ⟨fun hx hy => ⟨hf hx, ?_⟩, ?_, ?_, ?_, ?_⟩
  · rw [hr hx, resultOperand_of_ne _ s hy]
  · rintro rfl hy
    have hvf := getV_regF_writeFlagged_regF flag result s y
    rw [resultOperand_of_ne _ s hy] at hvf
    exact hvf
  · rintro hx rfl
    refine ⟨hf hx, (hr hx).trans ?_⟩
    unfold resultOperand
    cases s.flagAlias with
    | sequential => exact congrArg _ (State.getV_setV_self s regF _)
    | snapshotListed | flagLast => rfl
  · rintro rfl rfl
    refine (getV_regF_writeFlagged_regF flag result s regF).trans ?_
    unfold resultOperand
    cases s.flagAlias with
    | sequential => simp only [State.getV_setV_self, hresult]
    | snapshotListed => exact hresult _
    | flagLast => exact hflag _
  · rintro rfl hx
    rw [hr hx, resultOperand_of_ne _ s hx, hresult]
    exact ⟨(hf hx).trans (hflag _), rfl⟩

/-- Settles O22: Sub is the flag write of the flag and difference of V[x] and V[y]. -/
theorem subWritesFlagAndDifference : Obligations.SubWritesFlagAndDifference := by
  intro x y s
  exact ⟨decode_sub (opXY_toNat (by decide) x y), _, exec_sub x y s,
    regsKeptBut_writeFlagged _ _ s x y, keepsAllBut_writeFlagged _ _ s x y,
    twoOperandTable_writeFlagged gtFlag_self subMod_self x y s⟩

/-- Settles O24: Subn is the flag write of the flag and difference of V[y] and V[x]. -/
theorem subnWritesFlagAndDifference : Obligations.SubnWritesFlagAndDifference := by
  intro x y s
  exact ⟨decode_subn (opXY_toNat (by decide) x y), _, exec_subn x y s,
    regsKeptBut_writeFlagged _ _ s x y, keepsAllBut_writeFlagged _ _ s x y,
    twoOperandTable_writeFlagged (flag := fun a b => gtFlag b a) (result := fun a b => subMod b a)
      gtFlag_self subMod_self x y s⟩

/-! ### Shr and Shl -/

theorem shrFlag_eq (a b : Byte) : shrFlag a b = bitZero a := by
  apply BitVec.eq_of_toNat_eq
  have hand : (shrFlag a b).toNat = a.toNat % 2 := Nat.and_one_is_mod a.toNat
  rw [hand, bitZero, BitVec.toNat_ofNat]
  omega

theorem shrResult_eq (a b : Byte) : shrResult a b = halved a := by
  have := a.isLt
  apply BitVec.eq_of_toNat_eq
  simp only [shrResult, halved, BitVec.toNat_ushiftRight, BitVec.toNat_ofNat, Nat.shiftRight_one]
  omega

/-- Bit 7 is the top bit of a byte. -/
theorem shlFlag_eq (a b : Byte) : shlFlag a b = bitSeven a := by
  have htop : a.getLsbD 7 = decide (a.toNat ≥ 128) := BitVec.msb_eq_decide a
  have hmask : shlFlag a b = a &&& BitVec.twoPow 8 7 := rfl
  rw [hmask, BitVec.and_twoPow, htop]
  simp only [bitSeven, decide_eq_true_eq]
  rfl

theorem shlResult_eq (a b : Byte) : shlResult a b = doubled a := by
  apply BitVec.eq_of_toNat_eq
  simp only [shlResult, doubled, BitVec.toNat_shiftLeft, BitVec.toNat_ofNat, Nat.shiftLeft_eq]
  omega

theorem halved_bitZero (a : Byte) : halved (bitZero a) = 0 := by
  unfold bitZero
  obtain h | h := Nat.mod_two_eq_zero_or_one a.toNat <;> rw [h] <;> rfl

theorem doubled_bitSeven (a : Byte) : doubled (bitSeven a) = 0 := by
  unfold bitSeven
  split <;> rfl

theorem exec_shr (x y : Reg) (s : State) : exec (.shr x y) s =
    .next (writeFlagged (fun a _ => bitZero a) (fun a _ => halved a) x y s) := by
  rw [← funext₂ shrFlag_eq, ← funext₂ shrResult_eq]
  rfl

theorem exec_shl (x y : Reg) (s : State) : exec (.shl x y) s =
    .next (writeFlagged (fun a _ => bitSeven a) (fun a _ => doubled a) x y s) := by
  rw [← funext₂ shlFlag_eq, ← funext₂ shlResult_eq]
  rfl

/-- The cases of R179 and R181 for a flag and a result of V[x] alone. -/
def OneOperandTable (flag result : Byte → Byte) (x : Reg) (s t : State) : Prop :=
  (x ≠ 15 → t.getV 15 = flag (s.getV x) ∧ t.getV x = result (s.getV x)) ∧
  (x = 15 → t.getV 15 =
    match s.flagAlias with
    | .sequential => 0
    | .snapshotListed => result (s.getV 15)
    | .flagLast => flag (s.getV 15))

/-- The flag write gives these values, where the shift moves the bit of the flag out. -/
theorem oneOperandTable_writeFlagged {flag result : Byte → Byte}
    (hout : ∀ a, result (flag a) = 0) (x y : Reg) (s : State) :
    OneOperandTable flag result x s
      (writeFlagged (fun a _ => flag a) (fun a _ => result a) x y s) := by
  refine ⟨fun hx => ⟨getV_regF_writeFlagged_of_ne _ _ s y hx,
    getV_writeFlagged_of_ne _ _ s y hx⟩, ?_⟩
  rintro rfl
  refine (getV_regF_writeFlagged_regF _ _ s y).trans ?_
  cases s.flagAlias with
  | sequential => exact hout _
  | snapshotListed | flagLast => rfl

/-- Settles O23: Shr is the flag write of bit 0 and the half of V[x]. -/
theorem shrWritesBitZeroAndHalf : Obligations.ShrWritesBitZeroAndHalf := by
  intro x y s
  exact ⟨decode_shr (opXY_toNat (by decide) x y), _, exec_shr x y s,
    regsKeptBut_writeFlagged _ _ s x y, keepsAllBut_writeFlagged _ _ s x y,
    oneOperandTable_writeFlagged halved_bitZero x y s⟩

/-- Settles O25: Shl is the flag write of bit 7 and the double of V[x]. -/
theorem shlWritesBitSevenAndDouble : Obligations.ShlWritesBitSevenAndDouble := by
  intro x y s
  exact ⟨decode_shl (opXY_toNat (by decide) x y), _, exec_shl x y s,
    regsKeptBut_writeFlagged _ _ s x y, keepsAllBut_writeFlagged _ _ s x y,
    oneOperandTable_writeFlagged doubled_bitSeven x y s⟩

/-! ### FLAG_ALIAS where neither operand is VF -/

/-- The flag write is then the same two register writes under every FLAG_ALIAS. -/
theorem writeFlagged_flagAlias (flag result : Byte → Byte → Byte) {x y : Reg} (s : State)
    (m : FlagAlias) (hx : x ≠ regF) (hy : y ≠ regF) :
    writeFlagged flag result x y { s with flagAlias := m } =
      { writeFlagged flag result x y s with flagAlias := m } := by
  rw [writeFlagged_of_ne flag result _ y hx, writeFlagged_of_ne flag result s y hx,
    resultOperand_of_ne _ _ hy, resultOperand_of_ne _ s hy]
  rfl

/-- Settles O26: each of the four is a flag write. -/
theorem flagAliasMattersOnlyForVF : Obligations.FlagAliasMattersOnlyForVF := by
  intro x y i s t m hi hx hy h
  simp only [List.mem_cons, List.not_mem_nil, or_false] at hi
  obtain rfl | rfl | rfl | rfl := hi
  all_goals
    obtain rfl := Host.Outcome.next.inj h
    exact congrArg Host.Outcome.next (writeFlagged_flagAlias _ _ s m hx hy)

/-! ### Rand -/

theorem exec_rand (x : Reg) (kk : Byte) (s : State) :
    exec (.rand x kk) s = .next ((randomByte s).2.setV x ((randomByte s).1 &&& kk)) := rfl

theorem randomByte_randomBytes (s : State) :
    (randomByte s).2.randomBytes = s.randomBytes.tail := by
  rw [randomByte_spec]

/-- Settles O27: Rand writes the masked answer of its one request. -/
theorem randMasksOneRandomByte : Obligations.RandMasksOneRandomByte := by
  intro x kk s
  have hrand := exec_rand x kk s
  refine ⟨decode_rand (opXKK_toNat (by decide) x kk), _, (randomByte s).1, hrand,
    State.getV_setV_self _ x _, randomByte_events s, fun r₀ rest hs => ⟨randomByte_given hs, ?_⟩,
    fun r hr => exec_getV_of_not_written hrand (by simpa [regsWritten] using hr),
    keepsAllBut_of_eq_withPartsOf (randomByte_frame s x _)⟩
  rw [State.setV_randomBytes, randomByte_randomBytes, hs, List.tail_cons]

end Sys2Proof.Machine
end

section
/-! PROOFS. The index register and memory: what LoadI, AddI and SpriteDigit leave in I, and what the instructions that access memory at I store or load, or why they are fatal (44_index_memory.md R200-R206). -/

namespace Sys2Proof.Machine

/-! ### The range check of the bytes at I, up to I + last -/

theorem guardRange_of_last_inside {raw : Word} {last : Nat} {effect : State → State} {s : State}
    (h : s.iReg.toNat + last ≤ 0xFFF) : guardRange raw (last + 1) effect s = .next (effect s) :=
  guardRange_inside (.inr (Nat.succ_le_succ h))

/-- A failed range check is fatal before any access (20_memory.md R61, R62). -/
theorem guardRange_of_last_outside {raw : Word} {last : Nat} {effect : State → State} {s : State}
    (h : s.iReg.toNat + last > 0xFFF) : guardRange raw (last + 1) effect s =
      .next (s.haltedBy (.memoryOutOfRange raw (max s.iReg.toNat 0x1000))) :=
  guardRange_outside (by unfold memSize; omega)

/-! ### Bytes stored at I -/

section
variable {s : State} {bs : List Byte} (hwf : s.mem.wf = true)
  (hrange : s.iReg.toNat + bs.length ≤ memSize)
include hwf hrange

/-- The byte at I + k after a store is the one stored there. -/
theorem read_storeAtI {k : Nat} (hk : k < bs.length) :
    (s.storeAtI bs).mem.read (s.addressOf k) = bs[k] := by
  have hread := Memory.read_writeBytes bs (s.addressOf k) hwf hrange
  unfold State.addressOf at hread
  rw [if_pos (by omega), Nat.add_sub_cancel_left, List.getD_eq_getElem _ _ hk] at hread
  exact hread

theorem memoryKeptOutside_storeAtI :
    MemoryKeptOutside (s.addressOf 0) bs.length s (s.storeAtI bs) := fun a ha =>
  (Memory.read_writeBytes bs a hwf hrange).trans (if_neg (by unfold State.addressOf at ha; omega))

end

theorem keepsAllBut_storeAtI (bs : List Byte) (s : State) :
    KeepsAllBut [.memory] s (s.storeAtI bs) :=
  keepsAllBut_of_eq_withPartsOf rfl

/-! ### StoreBCD -/

theorem encode_storeBCD (x : Reg) : encode (.storeBCD x) = opX 0xF033 x := by
  rw [← decode_storeBCD (opX_toNat (by decide) x), encode_decode]

/-- The digits of a byte, each below 256. -/
theorem map_toNat_bcdDigits (b : Byte) :
    (bcdDigits b).map BitVec.toNat = [b.toNat / 100, b.toNat / 10 % 10, b.toNat % 10] := by
  have := b.isLt
  simp only [bcdDigits, List.map_cons, List.map_nil, BitVec.toNat_ofNat, List.cons.injEq, and_true]
  omega

/-- The k-th digit is at I + k (44_index_memory.md R203). -/
theorem read_storeAtI_bcdDigits {s : State} (hwf : s.mem.wf = true)
    (hrange : s.iReg.toNat + 2 ≤ 0xFFF) (b : Byte) {k : Nat} (hk : k < 3) :
    ((s.storeAtI (bcdDigits b)).mem.read (s.addressOf k)).toNat =
      [b.toNat / 100, b.toNat / 10 % 10, b.toNat % 10][k] := by
  rw [read_storeAtI (bs := bcdDigits b) hwf (Nat.succ_le_succ hrange) hk]
  simp only [← map_toNat_bcdDigits]
  exact (List.getElem_map _).symm

/-- Settles O30: the three bytes stored are the digits. -/
theorem storeBCDWritesThreeDigits : Obligations.StoreBCDWritesThreeDigits := by
  intro x s hwf
  refine ⟨decode_storeBCD (opX_toNat (by decide) x), fun hin => ?_, fun hout => ?_⟩
  · have hdigit := fun k hk => read_storeAtI_bcdDigits hwf hin (s.getV x) (k := k) hk
    exact ⟨_, guardRange_of_last_inside hin, hdigit 0 (by decide), hdigit 1 (by decide),
      hdigit 2 (by decide),
      memoryKeptOutside_storeAtI (bs := bcdDigits (s.getV x)) hwf (Nat.succ_le_succ hin),
      keepsAllBut_storeAtI _ s⟩
  · rw [← encode_storeBCD]
    exact guardRange_of_last_outside hout

/-! ### StoreRegisters -/

theorem encode_storeRegisters (x : Reg) : encode (.storeRegisters x) = opX 0xF055 x := by
  rw [← decode_storeRegisters (opX_toNat (by decide) x), encode_decode]

/-- V0..Vx (44_index_memory.md R204). -/
def State.firstRegs (s : State) (x : Reg) : List Byte := s.v.toList.take (x.val + 1)

@[simp] theorem State.length_firstRegs (s : State) (x : Reg) :
    (s.firstRegs x).length = x.val + 1 := by
  have := x.isLt
  simp only [State.firstRegs, List.length_take, Vector.length_toList]
  omega

theorem State.getElem_firstRegs (s : State) (x r : Reg) (h : r.val < (s.firstRegs x).length) :
    (s.firstRegs x)[r.val] = s.getV r := by
  simp only [State.firstRegs, List.getElem_take, Vector.getElem_toList, State.getV]

theorem exec_storeRegisters_of_inside {x : Reg} {s : State} (h : s.iReg.toNat + x.val ≤ 0xFFF) :
    exec (.storeRegisters x) s = .next (s.storeAtI (s.firstRegs x)) :=
  guardRange_of_last_inside h

/-- Settles O31: the x + 1 bytes stored are V0..Vx. -/
theorem storeRegistersWritesV0ToVx : Obligations.StoreRegistersWritesV0ToVx := by
  intro x s hwf
  refine ⟨decode_storeRegisters (opX_toNat (by decide) x), fun hin => ?_, fun hout => ?_⟩
  · have hlen := s.length_firstRegs x
    have hrange : s.iReg.toNat + (s.firstRegs x).length ≤ memSize := by
      rw [hlen]
      exact Nat.succ_le_succ hin
    refine ⟨_, exec_storeRegisters_of_inside hin, fun r hr => ?_, ?_, keepsAllBut_storeAtI _ s⟩
    · rw [read_storeAtI hwf hrange (by rw [hlen]; exact Nat.lt_succ_of_le hr),
        State.getElem_firstRegs]
    · rw [← hlen]
      exact memoryKeptOutside_storeAtI hwf hrange
  · rw [← encode_storeRegisters]
    exact guardRange_of_last_outside hout

/-! ### ReadRegisters -/

theorem encode_readRegisters (x : Reg) : encode (.readRegisters x) = opX 0xF065 x := by
  rw [← decode_readRegisters (opX_toNat (by decide) x), encode_decode]

/-- Settles O32: the load writes V0..Vx from the bytes at I, and no other register. -/
theorem readRegistersLoadsV0ToVx : Obligations.ReadRegistersLoadsV0ToVx := by
  intro x s
  refine ⟨decode_readRegisters (opX_toNat (by decide) x), fun hin => ?_, fun hout => ?_⟩
  · exact ⟨_, guardRange_of_last_inside hin, loadRegisters_getV x s,
      keepsAllBut_of_eq_withPartsOf rfl⟩
  · rw [← encode_readRegisters]
    exact guardRange_of_last_outside hout

/-! ### The index register -/

theorem exec_loadI (nnn : Addr12) (s : State) :
    exec (.loadI nnn) s = .next { s with iReg := zext16 nnn } := rfl

theorem exec_addI (x : Reg) (s : State) :
    exec (.addI x) s = .next { s with iReg := s.iReg + (s.getV x).setWidth 16 } := rfl

/-- A byte is itself as a word. -/
theorem byte_setWidth_toNat (b : Byte) : (b.setWidth 16).toNat = b.toNat :=
  BitVec.toNat_setWidth_of_le (by decide)

/-- Settles O28: each writes I alone, the second with a wrapped sum. -/
theorem indexLoadsAndAdds : Obligations.IndexLoadsAndAdds := by
  refine ⟨fun nnn s => ?_, fun x s => ?_⟩
  · exact ⟨decode_loadI (opNNN_toNat (by decide) nnn), _, exec_loadI nnn s, zext16_toNat nnn,
      keepsAllBut_of_eq_withPartsOf rfl⟩
  · refine ⟨decode_addI (opX_toNat (by decide) x), _, exec_addI x s, ?_,
      keepsAllBut_of_eq_withPartsOf rfl⟩
    rw [BitVec.toNat_add, byte_setWidth_toNat]

theorem encode_spriteDigit (x : Reg) : encode (.spriteDigit x) = opX 0xF029 x := by
  rw [← decode_spriteDigit (opX_toNat (by decide) x), encode_decode]

/-- The glyph's address does not wrap. -/
theorem five_mul_byte_toNat (b : Byte) : (5 * b.setWidth 16).toNat = 5 * b.toNat := by
  have := b.isLt
  have hfive : (5 : Word).toNat = 5 := rfl
  rw [BitVec.toNat_mul, byte_setWidth_toNat, hfive]
  omega

/-- Settles O29: the two cases are those of the instruction's check. -/
theorem spriteDigitPointsAtItsGlyph : Obligations.SpriteDigitPointsAtItsGlyph := by
  intro x s
  refine ⟨decode_spriteDigit (opX_toNat (by decide) x), fun hle => ?_, fun hgt => ?_⟩
  · exact ⟨_, exec_spriteDigit_of_le (Nat.not_lt_of_le hle), five_mul_byte_toNat _,
      keepsAllBut_of_eq_withPartsOf rfl⟩
  · rw [exec_spriteDigit_of_gt hgt, encode_spriteDigit]

end Sys2Proof.Machine
end

section
/-! PROOFS. The keypad and the timers: the remap as a permutation of the key ids, the one query of SkipPressed, SkipNotPressed and WaitKey and where it sends the pc, the WaitKey that repeats itself, and the bytes moved between V[x] and DT or ST (45_keypad_timers.md R220-R226). -/

namespace Sys2Proof.Machine

/-! ### The remap -/

/-- No key id stands twice in KEYPAD_PERM. -/
theorem remap_injective {b c : Byte} {k : Fin 16} (hb : remap b = some k) (hc : remap c = some k) :
    c = b := by
  obtain ⟨hlt, _⟩ := List.getElem?_eq_some_iff.1 hc
  exact BitVec.eq_of_toNat_eq ((List.getElem?_inj hlt (by decide)).1 (hc.trans hb.symm))

/-- Every key id stands in KEYPAD_PERM, at a position that is a byte. -/
theorem remap_surjective (k : Fin 16) : ∃ b : Byte, remap b = some k := by
  have hmem : ∀ k : Fin 16, k ∈ keypadPerm := by decide
  obtain ⟨i, hi⟩ := List.mem_iff_getElem?.1 (hmem k)
  obtain ⟨hlt, _⟩ := List.getElem?_eq_some_iff.1 hi
  have hbyte : i < 2 ^ 8 := Nat.lt_trans hlt (by decide)
  exact ⟨BitVec.ofNat 8 i, by rw [remap, BitVec.toNat_ofNat, Nat.mod_eq_of_lt hbyte, hi]⟩

/-- Settles O33: the table is KEYPAD_PERM, 16 entries long, with every key id once. -/
theorem remapIsThePermutation : Obligations.RemapIsThePermutation := by
  refine ⟨by decide, fun b => remap_eq_none.2, fun k => ?_⟩
  obtain ⟨b, hb⟩ := remap_surjective k
  exact ⟨b, hb, fun c => remap_injective hb⟩

/-! ### One query -/

theorem keyPressed_pc (k : Fin 16) (s : State) : (keyPressed k s).2.pc = s.pc := by
  rw [keyPressed_spec]

/-- A listed answer is the query's answer, and is used up by it. -/
theorem keyPressed_takes_answer (k : Fin 16) (s : State) (a : Bool) (rest : List Bool)
    (h : s.keyAnswers = a :: rest) :
    (keyPressed k s).1 = a ∧ (keyPressed k s).2.keyAnswers = rest := by
  refine ⟨keyPressed_given h, ?_⟩
  rw [keyPressed_spec, h, List.tail_cons]

/-- A query, whatever pc it then leads to, keeps every part that an instruction with a query does
not write. -/
theorem keepsAllBut_keyPressed (k : Fin 16) (s : State) (pc : Word) :
    KeepsAllBut [.pc, .keyAnswers, .events, .freeCount] s
      { (keyPressed k s).2 with pc := pc } :=
  keepsAllBut_of_eq_withPartsOf (keyPressed_frame k s pc)

/-! ### Skips on a key -/

theorem encode_skipPressed (x : Reg) : encode (.skipPressed x) = opX 0xE09E x := by
  rw [← decode_skipPressed (opX_toNat (by decide) x), encode_decode]

theorem encode_skipNotPressed (x : Reg) : encode (.skipNotPressed x) = opX 0xE0A1 x := by
  rw [← decode_skipNotPressed (opX_toNat (by decide) x), encode_decode]

theorem skipOnPressed_pc (k : Fin 16) (s : State) :
    (skipOnPressed k s).pc = if (keyPressed k s).1 then s.pc + 2 else s.pc := by
  rw [skipOnPressed, State.skipIf_pc, keyPressed_pc]

theorem skipOnReleased_pc (k : Fin 16) (s : State) :
    (skipOnReleased k s).pc = if (keyPressed k s).1 then s.pc else s.pc + 2 := by
  rw [skipOnReleased, State.skipIf_pc, keyPressed_pc]
  cases (keyPressed k s).1 <;> rfl

/-- Settles O34: each is one query and a skip by its answer, after the check of V[x]. -/
theorem keySkipsQueryOnce : Obligations.KeySkipsQueryOnce := by
  intro x s
  refine ⟨decode_skipPressed (opX_toNat (by decide) x),
    decode_skipNotPressed (opX_toNat (by decide) x), fun k hk => ⟨?_, ?_⟩, fun hv => ⟨?_, ?_⟩⟩
  · exact ⟨_, _, withKey_inside hk, keyPressed_events k s, skipOnPressed_pc k s,
      keyPressed_takes_answer k s, keepsAllBut_keyPressed k s _⟩
  · exact ⟨_, _, withKey_inside hk, keyPressed_events k s, skipOnReleased_pc k s,
      keyPressed_takes_answer k s, keepsAllBut_keyPressed k s _⟩
  · rw [← encode_skipPressed]
    exact withKey_outside hv
  · rw [← encode_skipNotPressed]
    exact withKey_outside hv

/-! ### WaitKey -/

theorem encode_waitKey (x : Reg) : encode (.waitKey x) = opX 0xF00A x := by
  rw [← decode_waitKey (opX_toNat (by decide) x), encode_decode]

theorem exec_waitKey_of_key {x : Reg} {s : State} {k : Fin 16} (h : remap (s.getV x) = some k) :
    exec (.waitKey x) s = .next (waitOnKey k s) :=
  withKey_inside h

theorem waitOnKey_pc (k : Fin 16) (s : State) :
    (waitOnKey k s).pc = if (keyPressed k s).1 then s.pc else s.pc - 2 := by
  simp only [waitOnKey, keyPressed_pc]

/-- Settles O35: the query's answer decides whether the pc is rewound. -/
theorem waitKeyRewindsWhileReleased : Obligations.WaitKeyRewindsWhileReleased := by
  intro x s
  refine ⟨decode_waitKey (opX_toNat (by decide) x), fun k hk => ?_, fun hv => ?_⟩
  · have hpc := waitOnKey_pc k s
    refine ⟨_, _, exec_waitKey_of_key hk, keyPressed_events k s, fun hpressed => ?_,
      fun hreleased => ?_, keyPressed_takes_answer k s, keepsAllBut_keyPressed k s _⟩
    · rw [hpc, if_pos hpressed]
    · rw [hpc, hreleased, if_neg Bool.false_ne_true]
      exact ⟨rfl, BitVec.sub_add_cancel s.pc 2⟩
  · rw [← encode_waitKey]
    exact withKey_outside hv

/-- While its key is not pressed, a WaitKey is a query that aims at the WaitKey's own address. -/
theorem waitOnKey_of_released (k : Fin 16) {s : State} {rest : List Bool}
    (h : s.keyAnswers = false :: rest) :
    waitOnKey k s = ({ s with keyAnswers := rest }.log (.keyQuery k false)).aim s.pc := by
  have hquery : keyPressed k s = (false, { s with keyAnswers := rest }.log (.keyQuery k false)) := by
    rw [keyPressed, h]
  rw [waitOnKey, hquery]
  rfl

/-- The advance after a compensating offset arrives at the target (40_execution_cycle.md R135). -/
theorem State.advance_aim_of_running {s : State} (target : Word) (h : s.status = .running) :
    (s.aim target).advance = { s with pc := target } := by
  rw [State.advance_running (s := s.aim target) h, State.aim_pc_add_two]
  rfl

/-- All that is left of a released WaitKey and the advance after it is the query. -/
theorem advance_waitOnKey_of_released (k : Fin 16) {s : State} {rest : List Bool}
    (hrun : s.status = .running) (h : s.keyAnswers = false :: rest) :
    (waitOnKey k s).advance = { s with keyAnswers := rest }.log (.keyQuery k false) := by
  rw [waitOnKey_of_released k h]
  exact State.advance_aim_of_running s.pc hrun

/-- Settles O36: the step's query is all that it leaves, so the pc and the bytes it fetches from are
those of before. -/
theorem waitKeyRepeatsItself : Obligations.WaitKeyRepeatsItself := by
  intro s x k rest hrun hcall hpc hdecode hkey hanswers
  have hexec : exec (decode (fetchWord s.beginCall)) s.beginCall =
      .next (waitOnKey k s.beginCall) := by
    rw [fetchWord_beginCall, hdecode]
    exact exec_waitKey_of_key hkey
  have hstep : step s =
      .next ({ s.beginCall with keyAnswers := rest }.log (.keyQuery k false)) := by
    rw [step_of_nextCall_step hrun hcall, instructionStep_of_fetch (s := s.beginCall) hpc hexec,
      advance_waitOnKey_of_released (s := s.beginCall) k hrun hanswers]
  exact ⟨_, hstep, rfl, rfl, rfl, rfl, keepsAllBut_of_eq_withPartsOf rfl⟩

/-! ### Timers -/

theorem exec_readDelay (x : Reg) (s : State) :
    exec (.readDelay x) s = .next (s.setV x s.dt) := rfl

theorem exec_setDelay (x : Reg) (s : State) :
    exec (.setDelay x) s = .next { s with dt := s.getV x } := rfl

theorem exec_setSound (x : Reg) (s : State) :
    exec (.setSound x) s = .next { s with st := s.getV x } := rfl

/-- Settles O37: a register write of DT, and a write of either timer alone. -/
theorem timersReadAndSet : Obligations.TimersReadAndSet := by
  intro x s
  refine ⟨⟨decode_readDelay (opX_toNat (by decide) x), _, exec_readDelay x s, ?_⟩,
    ⟨decode_setDelay (opX_toNat (by decide) x), _, exec_setDelay x s, rfl, ?_⟩,
    ⟨decode_setSound (opX_toNat (by decide) x), _, exec_setSound x s, rfl, ?_⟩⟩
  · exact setV_writes_one s x s.dt
  · exact keepsAllBut_of_eq_withPartsOf rfl
  · exact keepsAllBut_of_eq_withPartsOf rfl

end Sys2Proof.Machine
end

section
/-! PROOFS. Fatal errors per instruction, and the timers over a step and a tick (60_exceptions.md R300, R303, R307, R308, 10_state.md R25, R26). -/

namespace Sys2Proof.Machine

/-! ### The one fatal error of an instruction -/

/-- A fatal value is of the kind the spec lists for an instruction and carries its opcode
(60_exceptions.md R300, R303). -/
def Fatal.isOf (f : Fatal) (i : Instr) : Prop :=
  fatalCodeOf i = some f.code ∧ f.raw = some (encode i)

/-- An instruction leaves the status alone, or fails its own check. -/
theorem exec_status_kept_or_own_fatal {i : Instr} {s t : State} (h : exec i s = .next t) :
    t.status = s.status ∨ ∃ f, t = s.haltedBy f ∧ f.isOf i := by
  cases i with
  | ret =>
    cases hstack : s.stack with
    | nil => exact .inr ⟨_, next_unique h (exec_ret_of_nil hstack), rfl, rfl⟩
    | cons entry rest =>
      obtain rfl := next_unique h (exec_ret_of_cons hstack)
      exact .inl rfl
  | call nnn =>
    cases hfull : s.stackFull with
    | true => exact .inr ⟨_, next_unique h (exec_call_of_full nnn hfull), rfl, rfl⟩
    | false =>
      obtain rfl := next_unique h (exec_call_of_room nnn hfull)
      exact .inl rfl
  | spriteDigit x =>
    by_cases hd : s.getV x > 9
    · exact .inr ⟨_, next_unique h (exec_spriteDigit_of_gt hd), rfl, rfl⟩
    · obtain rfl := next_unique h (exec_spriteDigit_of_le hd)
      exact .inl rfl
  | draw x y n =>
    obtain ⟨a, _, rfl⟩ | ⟨_, rfl⟩ := guardRange_cases h
    · exact .inr ⟨_, rfl, rfl, rfl⟩
    · exact .inl (drawRows_status _ _ _ s)
  | storeBCD x | storeRegisters x | readRegisters x =>
    obtain ⟨a, _, rfl⟩ | ⟨_, rfl⟩ := guardRange_cases h
    · exact .inr ⟨_, rfl, rfl, rfl⟩
    · exact .inl rfl
  | skipPressed x | skipNotPressed x | waitKey x =>
    obtain ⟨_, rfl⟩ | ⟨k, _, rfl⟩ := withKey_cases h
    · exact .inr ⟨_, rfl, rfl, rfl⟩
    · exact .inl (keyPressed_status k s)
  | unrecognized raw =>
    exact .inr ⟨_, next_unique h (exec_unrecognized raw s), rfl, rfl⟩
  | sub x y | shr x y | subn x y | shl x y =>
    obtain rfl := Host.Outcome.next.inj h
    exact .inl (writeFlagged_status _ _ x y s)
  | rand x kk =>
    obtain rfl := Host.Outcome.next.inj h
    exact .inl (randomByte_status s)
  | _ =>
    obtain rfl := Host.Outcome.next.inj h
    exact .inl rfl

/-- Settles O11: an execute phase that starts Running and ends Halted wrote the status, which an
instruction does by its own fatal error only. -/
theorem oneKindOfFatalPerInstruction : Obligations.OneKindOfFatalPerInstruction := by
  intro i s t f hrun h ht
  obtain hkept | ⟨g, rfl, hg⟩ := exec_status_kept_or_own_fatal h
  · rw [ht, hrun] at hkept
    cases hkept
  · obtain rfl : g = f := Status.halted.inj ht
    exact hg

/-! ### The timers over a step -/

/-- An instruction keeps every part it is not listed as writing, but the status where it is
fatal. -/
theorem exec_keeps_of_not_written {i : Instr} {s t : State} {p : Part} (h : exec i s = .next t)
    (hp : p ∉ partsWritten i) (hstatus : p ≠ .status) : Keeps s t p := by
  obtain ⟨f, rfl⟩ | hframe := exec_frame h
  · have hfatal : KeepsAllBut [.status] s (s.haltedBy f) := keepsAllBut_of_eq_withPartsOf rfl
    exact hfatal p (List.mem_singleton.not.2 hstatus)
  · exact keepsAllBut_of_eq_withPartsOf hframe p hp

/-- Only a SetDelay writes DT (10_state.md R25). -/
theorem exec_dt_cases {i : Instr} {s t : State} (h : exec i s = .next t) :
    t.dt = s.dt ∨ ∃ x, i = .setDelay x ∧ t.dt = s.getV x := by
  cases i with
  | setDelay x =>
    obtain rfl := next_unique h (exec_setDelay x s)
    exact .inr ⟨x, rfl, rfl⟩
  | _ => exact .inl (exec_keeps_of_not_written (p := .delay) h (by simp [partsWritten]) (by decide))

/-- Only a SetSound writes ST (10_state.md R26). -/
theorem exec_st_cases {i : Instr} {s t : State} (h : exec i s = .next t) :
    t.st = s.st ∨ ∃ x, i = .setSound x ∧ t.st = s.getV x := by
  cases i with
  | setSound x =>
    obtain rfl := next_unique h (exec_setSound x s)
    exact .inr ⟨x, rfl, rfl⟩
  | _ => exact .inl (exec_keeps_of_not_written (p := .sound) h (by simp [partsWritten]) (by decide))

@[simp] theorem State.advance_dt (s : State) : s.advance.dt = s.dt := by
  unfold State.advance
  split <;> rfl

@[simp] theorem State.advance_st (s : State) : s.advance.st = s.st := by
  unfold State.advance
  split <;> rfl

/-- Settles O43: a step that cannot fetch writes no timer, and the advance after the fetched
instruction writes none either. -/
theorem stepsNeverCountTimersDown : Obligations.StepsNeverCountTimersDown := by
  intro s t hcall h
  obtain ⟨_, ⟨_, hstep⟩ | ⟨htick, _⟩ | ⟨image, hload, _⟩⟩ := step_cases h
  · obtain ⟨_, rfl⟩ | ⟨_, u, hu, rfl⟩ := instructionStep_cases hstep
    · exact ⟨.inl rfl, .inl rfl⟩
    · rw [fetchWord_beginCall] at hu
      rw [State.advance_dt, State.advance_st]
      exact ⟨exec_dt_cases (s := s.beginCall) hu, exec_st_cases (s := s.beginCall) hu⟩
  · cases hcall.symm.trans htick
  · cases hcall.symm.trans hload

/-! ### The timers over a tick -/

/-- Counting down is natural-number subtraction, which saturates at zero (60_exceptions.md R307). -/
theorem countDown_toNat (b : Byte) : (countDown b).toNat = b.toNat - 1 := by
  unfold countDown
  split <;> bv_omega

/-- A tick writes the two timers, after its call is taken off the host's list and the time for an
image load is over. -/
theorem keepsAllBut_tickTimer_beginCall (s : State) :
    KeepsAllBut [.delay, .sound, .calls, .awaitingImage] s (tickTimer s.beginCall) :=
  keepsAllBut_of_eq_withPartsOf rfl

/-- Settles O42: a tick in the status Running counts each timer down. -/
theorem tickCountsBothTimersDown : Obligations.TickCountsBothTimersDown := fun s hrun hcall =>
  ⟨_, step_of_nextCall_tick hrun hcall, countDown_toNat s.dt, countDown_toNat s.st,
    keepsAllBut_tickTimer_beginCall s⟩

end Sys2Proof.Machine
end

section
/-! PROOFS. Construction for every value of the OPEN parameters, the image load, and the model's bookkeeping over a transaction (70_reset_and_hazards.md R340, R341, 60_exceptions.md R314, 10_state.md R32, 20_memory.md R68, R69). -/

namespace Sys2Proof.Machine

/-! ### The bytes construction leaves -/

theorem read_construct (p : LaunchParams) {a : Nat} (ha : a < memSize) :
    (State.construct p).mem.read a = initialByte p a := by
  rw [State.construct_mem, Memory.read_ofBytes _ ha]

theorem glyphZero_getD :
    ∀ a < 5, glyphZero.getD a 0x00 = if a = 0 ∨ a = 4 then 0xF0 else 0x90 := by
  decide

theorem initialByte_of_lt_five (p : LaunchParams) {a : Nat} (ha : a < 5) :
    initialByte p a = if a = 0 ∨ a = 4 then 0xF0 else 0x90 :=
  (if_pos ha).trans (glyphZero_getD a ha)

theorem initialByte_of_font (p : LaunchParams) {a : Nat} (hlo : 5 ≤ a) (hhi : a < 80) :
    initialByte p a = p.font a :=
  (if_neg (Nat.not_lt.2 hlo)).trans (if_pos hhi)

theorem initialByte_of_above_font (p : LaunchParams) {a : Nat} (hlo : 80 ≤ a) :
    initialByte p a = p.initMem a :=
  (if_neg (by omega)).trans (if_neg (Nat.not_lt.2 hlo))

/-- Settles O45: but for memory and the two parameters construction is reset, and memory is built
from the bytes of each range of addresses. -/
theorem constructionHoldsItsParameters : Obligations.ConstructionHoldsItsParameters := by
  intro p
  have hregs (r : Reg) : (State.construct p).getV r = 0 :=
    (State.construct_getV p r).trans (State.reset_getV r)
  have hpixels (x : Fin 64) (y : Fin 32) : (State.construct p).pixel x y = false :=
    (State.construct_pixel p x y).trans (State.reset_pixel x y)
  refine ⟨hregs, rfl, rfl, State.construct_stack p, rfl, rfl, hpixels, State.construct_status p,
    State.construct_events p, rfl, rfl, fun a ha => ?_, fun a hlo hhi => ?_, fun a hlo hhi => ?_⟩
  · rw [read_construct p (by unfold memSize; omega), initialByte_of_lt_five p ha]
  · rw [read_construct p (by unfold memSize; omega), initialByte_of_font p hlo hhi]
  · rw [read_construct p (Nat.lt_succ_of_le hhi), initialByte_of_above_font p hlo]

/-! ### The invariants of the state after construction -/

theorem stackLegal_of_nil {s : State} (h : s.stack = []) : StackLegal s := by
  unfold StackLegal
  rw [h]
  exact ⟨fun _ _ => Nat.zero_le _, fun _ he => absurd he List.not_mem_nil⟩

theorem inv_construct (p : LaunchParams) : Inv (State.construct p) := by
  have hmem : (State.construct p).mem.wf = true := by
    rw [State.construct_mem, Memory.wf_ofBytes]
  exact inv_of_running hmem (stackLegal_of_nil (State.construct_stack p))
    (State.construct_status p)

/-- No event is recorded, and the framebuffer is blank as the sink's screen is. -/
theorem sinkMirrors_construct (p : LaunchParams) : SinkMirrors (State.construct p) := by
  unfold SinkMirrors
  rw [State.construct_events, State.construct_fb]
  rfl

/-- Settles O48: reset is the construction at the parameters' defaults. -/
theorem invariantsHoldAfterConstruction : Obligations.InvariantsHoldAfterConstruction := by
  refine ⟨fun p => ⟨inv_construct p, sinkMirrors_construct p⟩, ?_⟩
  rw [← construct_defaultParams]
  exact ⟨inv_construct _, sinkMirrors_construct _⟩

/-! ### The image load -/

theorem length_take_maxImage (image : List Byte) :
    (image.take maxImage).length = min image.length 3584 := by
  rw [List.length_take, Nat.min_comm, maxImage]

theorem getD_take_of_lt {l : List Byte} {n i : Nat} (hi : i < n) :
    (l.take n).getD i 0 = l.getD i 0 := by
  simp only [List.getD_eq_getElem?_getD, List.getElem?_take_of_lt hi]

/-- A read after an image load: a byte of the image where it is placed, and every other address as
before. -/
theorem read_loadImage (image : List Byte) {s : State} (hwf : s.mem.wf = true) (a : Nat) :
    (loadImage image s).mem.read a =
      if 0x200 ≤ a ∧ a < 0x200 + min image.length 3584 then image.getD (a - 0x200) 0
      else s.mem.read a := by
  have hfits : programBase + (image.take maxImage).length ≤ memSize := by
    rw [length_take_maxImage, programBase, memSize]
    omega
  have hread := Memory.read_writeBytes (image.take maxImage) a hwf hfits
  rw [length_take_maxImage, programBase] at hread
  refine hread.trans ?_
  split
  · next ha => exact getD_take_of_lt (by unfold maxImage; omega)
  · rfl

theorem keepsAllBut_loadImage_beginCall (image : List Byte) (s : State) :
    KeepsAllBut [.memory, .calls, .awaitingImage] s (loadImage image s.beginCall) :=
  keepsAllBut_of_eq_withPartsOf rfl

theorem step_of_late_load {s : State} {image : List Byte} (hrun : s.status = .running)
    (hcall : s.nextCall = .load image) (hlate : s.awaitingImage = false) :
    step s = .refused .lateImageLoad := by
  unfold step transact
  rw [hrun, hcall, hlate]
  rfl

/-- Settles O46: the load is a block store of the cut image, and it is refused where an image is no
longer awaited. -/
theorem imageLoadPlacesTheImage : Obligations.ImageLoadPlacesTheImage := by
  refine fun s image hwf hrun hcall => ⟨fun hawait => ?_, step_of_late_load hrun hcall⟩
  have hread := read_loadImage image (s := s.beginCall) hwf
  refine ⟨_, step_of_nextCall_load hrun hcall hawait, fun i hi => ?_, fun a ha => ?_,
    keepsAllBut_loadImage_beginCall image s⟩
  · rw [hread, if_pos (by omega), Nat.add_sub_cancel_left]
  · rw [hread, if_neg (by omega), State.beginCall_mem]

/-! ### The host's calls over a transaction -/

@[simp] theorem State.advance_calls (s : State) : s.advance.calls = s.calls := by
  unfold State.advance
  split <;> rfl

@[simp] theorem State.advance_awaitingImage (s : State) :
    s.advance.awaitingImage = s.awaitingImage := by
  unfold State.advance
  split <;> rfl

theorem calls_not_written (i : Instr) : .calls ∉ partsWritten i := by
  cases i <;> simp [partsWritten]

theorem awaitingImage_not_written (i : Instr) : .awaitingImage ∉ partsWritten i := by
  cases i <;> simp [partsWritten]

/-- After its call has begun an instruction step leaves the host's calls and the image-load flag
alone: neither an instruction nor a fatal error nor the advance writes them. -/
theorem instructionStep_keeps_bookkeeping {s t : State} (h : instructionStep s = .next t) :
    t.calls = s.calls ∧ t.awaitingImage = s.awaitingImage := by
  obtain ⟨_, rfl⟩ | ⟨_, u, hu, rfl⟩ := instructionStep_cases h
  · exact ⟨rfl, rfl⟩
  · rw [State.advance_calls, State.advance_awaitingImage]
    exact ⟨exec_keeps_of_not_written (p := .calls) hu (calls_not_written _) (by decide),
      exec_keeps_of_not_written (p := .awaitingImage) hu (awaitingImage_not_written _) (by decide)⟩

/-- Settles O47: `beginCall` takes the call and closes the time for an image load, and none of the
three transactions touches either after it. -/
theorem transactionsTakeCallsInOrder : Obligations.TransactionsTakeCallsInOrder := by
  intro s t h
  obtain ⟨_, ⟨_, hstep⟩ | ⟨_, rfl⟩ | ⟨image, _, _, rfl⟩⟩ := step_cases h
  · exact instructionStep_keeps_bookkeeping (s := s.beginCall) hstep
  · exact ⟨rfl, rfl⟩
  · exact ⟨rfl, rfl⟩

end Sys2Proof.Machine
end
